-- ==== Sys2Proof/Word.lean ====
section
/-! DEFINITION. The word types of the CHIP-8 engine (spec/00_scope.md R5, R8): all values are unsigned. -/

namespace Sys2Proof

/-- An 8-bit value: a memory byte, a general register, a timer, an `nn` immediate. -/
abbrev Byte := BitVec 8

/-- A 16-bit value: `pc`, `I`, a stack entry, an instruction. -/
abbrev Word := BitVec 16

/-- A 12-bit immediate `nnn`. -/
abbrev Imm12 := BitVec 12

/-- A register number, the fields `x` and `y`: V0 to VF (spec/10_state.md R21). -/
abbrev Reg := Fin 16

end Sys2Proof
end

