-- ==== Sys2Proof/Syntax.lean ====
section
/-! DEFINITION. The 24 instructions of the opcode map (spec/30_encoding.md R74), one constructor per row, and their names. -/

namespace Sys2Proof

/-- One constructor per row of spec/opcode_table.json, in the table's order. Operands carry their encoded width
(spec/30_encoding.md R72), so every term is encodable. -/
inductive Instr where
  /-- 0000 -/
  | nop
  /-- 00E0 -/
  | cls
  /-- 00EE -/
  | ret
  /-- 1nnn -/
  | jp (nnn : Imm12)
  /-- 2nnn -/
  | call (nnn : Imm12)
  /-- 3xnn -/
  | seImm (x : Reg) (nn : Byte)
  /-- 4xnn -/
  | sneImm (x : Reg) (nn : Byte)
  /-- 5xy0 -/
  | seReg (x y : Reg)
  /-- 6xnn -/
  | ldImm (x : Reg) (nn : Byte)
  /-- 7xnn -/
  | addImm (x : Reg) (nn : Byte)
  /-- 8xy0 -/
  | ldReg (x y : Reg)
  /-- 8xy1 -/
  | or (x y : Reg)
  /-- 8xy2 -/
  | and (x y : Reg)
  /-- 8xy3 -/
  | xor (x y : Reg)
  /-- 8xy4 -/
  | addReg (x y : Reg)
  /-- 8xy5 -/
  | sub (x y : Reg)
  /-- 8xy6; `y` is the don't-care nibble of spec/30_encoding.md R75, kept so that no bit is dropped (log entry 12). -/
  | shr (x y : Reg)
  /-- 8xy7 -/
  | subn (x y : Reg)
  /-- 8xyE; `y` is the don't-care nibble of spec/30_encoding.md R75, kept so that no bit is dropped (log entry 12). -/
  | shl (x y : Reg)
  /-- 9xy0 -/
  | sneReg (x y : Reg)
  /-- Annn -/
  | ldI (nnn : Imm12)
  /-- Bnnn -/
  | jpV0 (nnn : Imm12)
  /-- Cxnn -/
  | rnd (x : Reg) (nn : Byte)
  /-- Dxyn; `n` is a row count 0 to 15. -/
  | drw (x y : Reg) (n : Fin 16)
  deriving DecidableEq, Repr

/-- The row names of spec/opcode_table.json, in its order. -/
inductive Mnemonic where
  | NOP | CLS | RET | JP | CALL | SE_imm | SNE_imm | SE_reg | LD_imm | ADD_imm | LD_reg | OR | AND | XOR
  | ADD_reg | SUB | SHR | SUBN | SHL | SNE_reg | LD_I | JP_V0 | RND | DRW
  deriving DecidableEq, Repr

/-- The row an instruction belongs to. -/
def Instr.mnemonic : Instr → Mnemonic
  | .nop => .NOP
  | .cls => .CLS
  | .ret => .RET
  | .jp _ => .JP
  | .call _ => .CALL
  | .seImm _ _ => .SE_imm
  | .sneImm _ _ => .SNE_imm
  | .seReg _ _ => .SE_reg
  | .ldImm _ _ => .LD_imm
  | .addImm _ _ => .ADD_imm
  | .ldReg _ _ => .LD_reg
  | .or _ _ => .OR
  | .and _ _ => .AND
  | .xor _ _ => .XOR
  | .addReg _ _ => .ADD_reg
  | .sub _ _ => .SUB
  | .shr _ _ => .SHR
  | .subn _ _ => .SUBN
  | .shl _ _ => .SHL
  | .sneReg _ _ => .SNE_reg
  | .ldI _ => .LD_I
  | .jpV0 _ => .JP_V0
  | .rnd _ _ => .RND
  | .drw _ _ _ => .DRW

end Sys2Proof
end

