-- ==== Sys2Proof/Config.lean ====
section
/-! DEFINITION. The implementation parameters (spec/00_scope.md R5) and the two values the spec leaves OPEN, as constants
without a body: the font bytes and the random bytes. -/

namespace Sys2Proof

/-- MEM_SIZE: bytes of memory. -/
abbrev Config.memSize : Nat := 4096

/-- PROG_BASE: first byte of a loaded program and reset value of `pc`. -/
abbrev Config.progBase : Nat := 0x200

/-- FONT_LEN: bytes of the font table at address 0 (FONT_BASE). -/
abbrev Config.fontLen : Nat := 80

/-- MAX_PROG_LEN: the longest loadable program, MEM_SIZE - PROG_BASE. -/
abbrev Config.maxProgLen : Nat := 3584

/-- STACK_DEPTH: entries of the call stack (spec/90_conflicts.md C8). -/
abbrev Config.stackDepth : Nat := 48

/-- FONT_ROM: the 80 font bytes, a parameter the spec leaves OPEN (spec/92_eei_decisions.md D12): a free value, so a proof
holds for every font. Log entry 2. -/
opaque Config.fontRom : Fin 80 → Byte

/-- RNG: the byte that the k-th executed RND draws, a parameter the spec leaves OPEN (spec/92_eei_decisions.md D11): a free
value, so a proof holds for every sequence of bytes. Log entry 1. -/
opaque Config.rng : Nat → Byte

end Sys2Proof
end

