-- ==== Sys2Proof/WellFormed.lean ====
section
/-! DEFINITION. What may enter the machine: instructions (operand ranges, spec/30_encoding.md R72) and programs
(capacity, spec/70_reset_and_hazards.md R194). -/

namespace Sys2Proof

/-- Every operand is in the range of its field (spec/30_encoding.md R71, R72). The operand types of `Instr` already carry these
bounds, so no ill-formed instruction can be written: `Instr.wellFormed_eq_true` in Laws/Decode.lean. -/
def Instr.wellFormed : Instr → Bool
  | .nop => true
  | .cls => true
  | .ret => true
  | .jp nnn => decide (nnn.toNat < 4096)
  | .call nnn => decide (nnn.toNat < 4096)
  | .seImm x nn => decide (x.val < 16 ∧ nn.toNat < 256)
  | .sneImm x nn => decide (x.val < 16 ∧ nn.toNat < 256)
  | .seReg x y => decide (x.val < 16 ∧ y.val < 16)
  | .ldImm x nn => decide (x.val < 16 ∧ nn.toNat < 256)
  | .addImm x nn => decide (x.val < 16 ∧ nn.toNat < 256)
  | .ldReg x y => decide (x.val < 16 ∧ y.val < 16)
  | .or x y => decide (x.val < 16 ∧ y.val < 16)
  | .and x y => decide (x.val < 16 ∧ y.val < 16)
  | .xor x y => decide (x.val < 16 ∧ y.val < 16)
  | .addReg x y => decide (x.val < 16 ∧ y.val < 16)
  | .sub x y => decide (x.val < 16 ∧ y.val < 16)
  | .shr x y => decide (x.val < 16 ∧ y.val < 16)
  | .subn x y => decide (x.val < 16 ∧ y.val < 16)
  | .shl x y => decide (x.val < 16 ∧ y.val < 16)
  | .sneReg x y => decide (x.val < 16 ∧ y.val < 16)
  | .ldI nnn => decide (nnn.toNat < 4096)
  | .jpV0 nnn => decide (nnn.toNat < 4096)
  | .rnd x nn => decide (x.val < 16 ∧ nn.toNat < 256)
  | .drw x y n => decide (x.val < 16 ∧ y.val < 16 ∧ n.val < 16)

/-- A program the engine has room for: at most MAX_PROG_LEN bytes (spec/70_reset_and_hazards.md R194). -/
def Program.wellFormed (bytes : List Byte) : Bool := decide (bytes.length ≤ Config.maxProgLen)

end Sys2Proof
end

