-- ==== Sys2Proof/Decode.lean ====
section
/-! DEFINITION. Instruction words: byte order, fields, the opcode map, the decoder (total, rejecting by name) and the encoder
(spec/20_memory.md R53, spec/30_encoding.md R70 to R77, spec/40_step_cycle.md R93, R94). -/

namespace Sys2Proof

/-! ## Byte order (spec/20_memory.md R53) -/

/-- The instruction whose byte at the lower address is `hi`: big-endian. -/
def wordOfBytes (hi lo : Byte) : Word := hi ++ lo

/-- The byte stored at the lower address. -/
def highByte (w : Word) : Byte := w.extractLsb' 8 8

/-- The byte stored at the higher address. -/
def lowByte (w : Word) : Byte := w.extractLsb' 0 8

/-! ## Fields (spec/00_scope.md R9) -/

/-- `op = ins[15:12]`, the family. -/
def fieldOp (ins : Word) : Fin 16 := (ins.extractLsb' 12 4).toFin

/-- `x = ins[11:8]`. -/
def fieldX (ins : Word) : Reg := (ins.extractLsb' 8 4).toFin

/-- `y = ins[7:4]`. -/
def fieldY (ins : Word) : Reg := (ins.extractLsb' 4 4).toFin

/-- `n = ins[3:0]`. -/
def fieldN (ins : Word) : Fin 16 := (ins.extractLsb' 0 4).toFin

/-- `nn = ins[7:0]`. -/
def fieldNN (ins : Word) : Byte := ins.extractLsb' 0 8

/-- `nnn = ins[11:0]`. -/
def fieldNNN (ins : Word) : Imm12 := ins.extractLsb' 0 12

/-! ## The opcode map (spec/30_encoding.md R74) -/

/-- The `match` column. -/
def Mnemonic.matchBits : Mnemonic → Word
  | .NOP => 0x0000#16
  | .CLS => 0x00E0#16
  | .RET => 0x00EE#16
  | .JP => 0x1000#16
  | .CALL => 0x2000#16
  | .SE_imm => 0x3000#16
  | .SNE_imm => 0x4000#16
  | .SE_reg => 0x5000#16
  | .LD_imm => 0x6000#16
  | .ADD_imm => 0x7000#16
  | .LD_reg => 0x8000#16
  | .OR => 0x8001#16
  | .AND => 0x8002#16
  | .XOR => 0x8003#16
  | .ADD_reg => 0x8004#16
  | .SUB => 0x8005#16
  | .SHR => 0x8006#16
  | .SUBN => 0x8007#16
  | .SHL => 0x800E#16
  | .SNE_reg => 0x9000#16
  | .LD_I => 0xA000#16
  | .JP_V0 => 0xB000#16
  | .RND => 0xC000#16
  | .DRW => 0xD000#16

/-- The `mask` column. -/
def Mnemonic.mask : Mnemonic → Word
  | .NOP => 0xFFFF#16
  | .CLS => 0xFFFF#16
  | .RET => 0xFFFF#16
  | .JP => 0xF000#16
  | .CALL => 0xF000#16
  | .SE_imm => 0xF000#16
  | .SNE_imm => 0xF000#16
  | .SE_reg => 0xF00F#16
  | .LD_imm => 0xF000#16
  | .ADD_imm => 0xF000#16
  | .LD_reg => 0xF00F#16
  | .OR => 0xF00F#16
  | .AND => 0xF00F#16
  | .XOR => 0xF00F#16
  | .ADD_reg => 0xF00F#16
  | .SUB => 0xF00F#16
  | .SHR => 0xF00F#16
  | .SUBN => 0xF00F#16
  | .SHL => 0xF00F#16
  | .SNE_reg => 0xF00F#16
  | .LD_I => 0xF000#16
  | .JP_V0 => 0xF000#16
  | .RND => 0xF000#16
  | .DRW => 0xF000#16

/-- "A row of rule R74 selects `ins` exactly when `ins AND mask = match`" (spec/30_encoding.md R73). -/
abbrev Mnemonic.selects (m : Mnemonic) (ins : Word) : Prop := ins &&& m.mask = m.matchBits

/-! ## The decoder -/

/-- What decoding answers. -/
inductive Decoded where
  /-- One of the 24 instructions. -/
  | instr (i : Instr)
  /-- No row of the map selects `ins`: the fallback arm (spec/30_encoding.md R76). -/
  | unsupported (ins : Word)
  /-- Fewer than two bytes were given. -/
  | truncated
  deriving DecidableEq, Repr

/-- Family 0: all four nibbles decide. -/
def decodeFamily0 (ins : Word) : Decoded :=
  if ins = 0x0000#16 then .instr .nop
  else if ins = 0x00E0#16 then .instr .cls
  else if ins = 0x00EE#16 then .instr .ret
  else .unsupported ins

/-- Family 8: the low nibble selects the operation. -/
def decodeFamily8 (ins : Word) : Decoded :=
  match (fieldN ins).val with
  | 0x0 => .instr (.ldReg (fieldX ins) (fieldY ins))
  | 0x1 => .instr (.or (fieldX ins) (fieldY ins))
  | 0x2 => .instr (.and (fieldX ins) (fieldY ins))
  | 0x3 => .instr (.xor (fieldX ins) (fieldY ins))
  | 0x4 => .instr (.addReg (fieldX ins) (fieldY ins))
  | 0x5 => .instr (.sub (fieldX ins) (fieldY ins))
  | 0x6 => .instr (.shr (fieldX ins) (fieldY ins))
  | 0x7 => .instr (.subn (fieldX ins) (fieldY ins))
  | 0xE => .instr (.shl (fieldX ins) (fieldY ins))
  | _ => .unsupported ins

/-- Decoding of one instruction word: total (spec/30_encoding.md R73), matching as spec/40_step_cycle.md R94 says: on `op`
alone, on `op` and `n` for families 5, 8, 9, on all four nibbles for family 0; families E and F never match. -/
def decodeWord (ins : Word) : Decoded :=
  match (fieldOp ins).val with
  | 0x0 => decodeFamily0 ins
  | 0x1 => .instr (.jp (fieldNNN ins))
  | 0x2 => .instr (.call (fieldNNN ins))
  | 0x3 => .instr (.seImm (fieldX ins) (fieldNN ins))
  | 0x4 => .instr (.sneImm (fieldX ins) (fieldNN ins))
  | 0x5 => if (fieldN ins).val = 0 then .instr (.seReg (fieldX ins) (fieldY ins)) else .unsupported ins
  | 0x6 => .instr (.ldImm (fieldX ins) (fieldNN ins))
  | 0x7 => .instr (.addImm (fieldX ins) (fieldNN ins))
  | 0x8 => decodeFamily8 ins
  | 0x9 => if (fieldN ins).val = 0 then .instr (.sneReg (fieldX ins) (fieldY ins)) else .unsupported ins
  | 0xA => .instr (.ldI (fieldNNN ins))
  | 0xB => .instr (.jpV0 (fieldNNN ins))
  | 0xC => .instr (.rnd (fieldX ins) (fieldNN ins))
  | 0xD => .instr (.drw (fieldX ins) (fieldY ins) (fieldN ins))
  | _ => .unsupported ins

/-- Decoding of bytes in memory order, with the bytes that follow (spec/30_encoding.md R70: every instruction is two bytes). -/
def decode : List Byte → Decoded × List Byte
  | hi :: lo :: rest => (decodeWord (wordOfBytes hi lo), rest)
  | _ => (.truncated, [])

/-! ## The encoder, from the formats of spec/30_encoding.md R71 -/

/-- Format NNN. -/
def encodeNNN (op : BitVec 4) (nnn : Imm12) : Word := op ++ nnn

/-- Format XNN. -/
def encodeXNN (op : BitVec 4) (x : Reg) (nn : Byte) : Word := (op ++ BitVec.ofFin (w := 4) x) ++ nn

/-- Formats XYK and XYN: four nibbles. -/
def encodeXYN (op : BitVec 4) (x y : Reg) (n : Fin 16) : Word :=
  (op ++ BitVec.ofFin (w := 4) x) ++ (BitVec.ofFin (w := 4) y ++ BitVec.ofFin (w := 4) n)

/-- The instruction word. -/
def encode : Instr → Word
  | .nop => 0x0000#16
  | .cls => 0x00E0#16
  | .ret => 0x00EE#16
  | .jp nnn => encodeNNN 0x1#4 nnn
  | .call nnn => encodeNNN 0x2#4 nnn
  | .seImm x nn => encodeXNN 0x3#4 x nn
  | .sneImm x nn => encodeXNN 0x4#4 x nn
  | .seReg x y => encodeXYN 0x5#4 x y 0x0
  | .ldImm x nn => encodeXNN 0x6#4 x nn
  | .addImm x nn => encodeXNN 0x7#4 x nn
  | .ldReg x y => encodeXYN 0x8#4 x y 0x0
  | .or x y => encodeXYN 0x8#4 x y 0x1
  | .and x y => encodeXYN 0x8#4 x y 0x2
  | .xor x y => encodeXYN 0x8#4 x y 0x3
  | .addReg x y => encodeXYN 0x8#4 x y 0x4
  | .sub x y => encodeXYN 0x8#4 x y 0x5
  | .shr x y => encodeXYN 0x8#4 x y 0x6
  | .subn x y => encodeXYN 0x8#4 x y 0x7
  | .shl x y => encodeXYN 0x8#4 x y 0xE
  | .sneReg x y => encodeXYN 0x9#4 x y 0x0
  | .ldI nnn => encodeNNN 0xA#4 nnn
  | .jpV0 nnn => encodeNNN 0xB#4 nnn
  | .rnd x nn => encodeXNN 0xC#4 x nn
  | .drw x y n => encodeXYN 0xD#4 x y n

/-- The two bytes of an instruction, in memory order. -/
def encodeBytes (i : Instr) : List Byte := [highByte (encode i), lowByte (encode i)]

/-! ## The opcode table's numbering -/

/-- The instruction word whose low `nbits` bits, numbered as spec/opcode_table.json numbers them, are `w` (the bits above are
0). The instruction is one 16-bit word, so bit 0 is its least significant bit. -/
def tableWord (nbits w : Nat) : Word := BitVec.ofNat 16 (w % 2 ^ nbits)

/-- What the decoder reads from that word's bytes, laid out as memory holds them. -/
def decodeTableWord (nbits w : Nat) : Option Instr :=
  match (decode [highByte (tableWord nbits w), lowByte (tableWord nbits w)]).1 with
  | .instr i => some i
  | .unsupported _ => none
  | .truncated => none

end Sys2Proof
end

