-- ==== Sys2Proof/Machine/Flags.lean ====
section
/-! DEFINITION. Arithmetic results and the value each instruction writes to VF as a flag (spec/10_state.md R22,
spec/42_load_alu.md R127 to R131, R134). -/

namespace Sys2Proof.Machine

/-- A flag is 0x00 or 0x01, written to all 8 bits of VF (spec/10_state.md R22). -/
def flagByte (b : Bool) : Byte := if b then 0x01#8 else 0x00#8

/-- `zext_9(a) + zext_9(b)`, 0 to 510 (R127). -/
def sum9 (a b : Byte) : BitVec 9 := a.setWidth 9 + b.setWidth 9

/-- `t[7:0]` (R127). -/
def addResult (a b : Byte) : Byte := (sum9 a b).extractLsb' 0 8

/-- `t[8]`: 1 when the sum exceeds 255 (R127). -/
def addFlag (a b : Byte) : Byte := flagByte ((sum9 a b).getLsbD 8)

/-- `(a - b) mod 256` (R128, R130). -/
def subResult (a b : Byte) : Byte := a - b

/-- 0 if the unsigned subtraction `a - b` borrowed, else 1 (R128, R130). -/
def subFlag (a b : Byte) : Byte := flagByte (decide (b.toNat ≤ a.toNat))

/-- `a >> 1`, logical (R129). -/
def shrResult (a : Byte) : Byte := a >>> 1

/-- Bit 0 (R129). -/
def shrFlag (a : Byte) : Byte := flagByte (a.getLsbD 0)

/-- `(a << 1)[7:0]` (R131). -/
def shlResult (a : Byte) : Byte := a <<< 1

/-- Bit 7 (R131). -/
def shlFlag (a : Byte) : Byte := flagByte (a.getLsbD 7)

end Sys2Proof.Machine
end

