-- ==== Sys2Proof/Machine/State.lean ====
section
/-! DEFINITION. The machine state of spec/10_state.md R20, whole and alone, as plain data; what `step` runs on; its reset value; the reasons a step can stop. -/

namespace Sys2Proof.Machine

/-- The bytes of memory that differ from the reset contents, strictly rising by address (`Memory.wf`, Machine/Memory.lean). -/
abbrev Memory := List Host.Cell

/-- The framebuffer, row-major: 32 rows, row 0 first, each of 64 columns, column 0 first (spec/10_state.md R28). -/
abbrev Display := Vector (Vector Bool 64) 32

/-- The four faults of a Step (spec/60_exceptions.md R160). -/
inductive FaultCause where
  | unsupported
  | stackOverflow
  | stackUnderflow
  | memOob
  deriving DecidableEq, Repr

/-- The fault status register (spec/10_state.md R32). -/
structure Fsr where
  valid : Bool
  cause : BitVec 3
  pc : Word
  instr : Word
  instrValid : Bool
  deriving DecidableEq, Repr

/-- FSR with all fields 0. -/
def Fsr.clear : Fsr := ⟨false, 0#3, 0#16, 0#16, false⟩

/-- The machine state: exactly the tuple of spec/10_state.md R20, under the spec's names. Nothing else is state of the machine. -/
structure MachineState where
  /-- R23 -/
  pc : Word
  /-- R27 -/
  mem : Memory
  /-- R24 -/
  I : Word
  /-- R21, R22 -/
  V : Vector Byte 16
  /-- R25 -/
  stack : Vector Word 48
  /-- R26: the number of return addresses on the stack -/
  sp : Fin 49
  /-- R28 -/
  disp : Display
  /-- R29 -/
  DT : Byte
  /-- R30 -/
  ST : Byte
  /-- R31 -/
  key : Vector Bool 16
  /-- R32 -/
  FSR : Fsr
  deriving DecidableEq, Repr

/-- What `step` and `exec` run on: the machine state in the harness of spec/92_eei_decisions.md D11, which injects a sequence of
bytes, the parameter RNG with "a byte per RND executed" (spec/00_scope.md R5). The machine is the first part; the place the harness
has reached in its sequence is no state of it (spec/10_state.md R33(b)). `step` is given no byte, so it must read the sequence at
an index that moves on (DESIGN CHOICE, log entry 1); the Step of spec/40_step_cycle.md R90, which is given its byte, is
`MachineState.apply` in Machine/HostOps.lean and knows the machine state alone. -/
structure State extends MachineState where
  /-- The harness's place in its sequence, `Config.rng`: the index of the next free byte. The host's operations neither read nor
  change it. -/
  rndDraws : Nat
  deriving DecidableEq, Repr

/-- The state after Reset or Initialize (spec/70_reset_and_hazards.md R191). No memory cell differs from the reset contents. -/
def State.reset : State where
  pc := 0x0200#16
  mem := []
  I := 0x0000#16
  V := Vector.replicate 16 0x00#8
  stack := Vector.replicate 48 0x0000#16
  sp := 0
  disp := Vector.replicate 32 (Vector.replicate 64 false)
  DT := 0x00#8
  ST := 0x00#8
  key := Vector.replicate 16 false
  FSR := Fsr.clear
  rndDraws := 0

/-- Reasons a step could stop with a fault. There is none: every fault of this hardware is taken inside the machine, as a next
state with FSR written (spec/40_step_cycle.md R96), and a halted engine answers its own state (R97). Log entries 3 and 4. -/
inductive Fault : Type
  deriving DecidableEq, Repr

/-- Reasons a step could be refused. -/
inductive Refusal where
  /-- Raised by an arm of `exec` whose instruction has no meaning yet. No arm does: all 24 are modelled. Safe: nothing can be
  proved of a run through it. -/
  | notModelled (mnemonic : String)
  deriving DecidableEq, Repr

end Sys2Proof.Machine
end

