-- ==== Sys2Proof/Machine/Memory.lean ====
section
/-! DEFINITION. Main memory (spec/20_memory.md): what an unlisted address reads as, reading and writing one byte, the canonical
form, and MemRead with its bounds check. -/

namespace Sys2Proof.Machine

/-- What an address that no cell lists reads as: the contents after Reset, FONT_ROM at 0 to 79 and 0x00 above
(spec/10_state.md R27, spec/90_conflicts.md C3). Log entry 2. -/
def resetByte (a : Nat) : Byte := if h : a < 80 then Config.fontRom ⟨a, h⟩ else 0x00#8

/-- The byte at an address. -/
def Memory.read : Memory → Nat → Byte
  | [], a => resetByte a
  | (b, v) :: m, a => if a = b then v else Memory.read m a

/-- A new cell in front, unless it holds what an unlisted address reads as. -/
def Memory.cons (a : Nat) (v : Byte) (m : Memory) : Memory := if v = resetByte a then m else (a, v) :: m

/-- The canonical list after a write at any address. -/
def Memory.insert : Memory → Nat → Byte → Memory
  | [], a, v => Memory.cons a v []
  | (b, w) :: m, a, v =>
    if a < b then Memory.cons a v ((b, w) :: m)
    else if a = b then Memory.cons a v m
    else (b, w) :: Memory.insert m a v

/-- A write of one byte. The array has no cell at 4096 or above; its callers check first, so the last case is never met by an
operation of the machine (log entry 16). -/
def Memory.write (m : Memory) (a : Nat) (v : Byte) : Memory := if a < Config.memSize then Memory.insert m a v else m

/-- Writes of consecutive bytes, from address `a` up. -/
def Memory.writeBytes : Memory → Nat → List Byte → Memory
  | m, _, [] => m
  | m, a, v :: vs => Memory.writeBytes (Memory.write m a v) (a + 1) vs

/-- The canonical form: addresses inside the array, strictly rising, and no cell equal to the reset contents. -/
def Memory.wf : Memory → Bool
  | [] => true
  | (a, v) :: m => decide (a < Config.memSize) && decide (v ≠ resetByte a) && m.all (fun c => decide (a < c.1)) && Memory.wf m

/-- The `n` bytes from address `a` up, lowest address first. -/
def Memory.readBytes (m : Memory) (a : Nat) : Nat → List Byte
  | 0 => []
  | n + 1 => Memory.read m a :: Memory.readBytes m (a + 1) n

/-- `MemRead(addr, n)` (spec/20_memory.md R57): `none` is `Fault(MEM_OOB)`. The whole access is checked, in integers, before any
byte is read; `n = 0` never faults. -/
def memRead (m : Memory) (addr n : Nat) : Option (List Byte) :=
  if 0 < n ∧ 4095 < addr + n - 1 then none else some (Memory.readBytes m addr n)

end Sys2Proof.Machine
end

