-- ==== Sys2Proof/Machine/Operands.lean ====
section
/-! DEFINITION. Operand forms (spec/30_encoding.md R72): every field is used unsigned; a 12-bit immediate or an 8-bit register is
zero-extended where it meets `pc` or `I`. -/

namespace Sys2Proof.Machine

/-- The flag register VF (spec/10_state.md R22). -/
def VF : Reg := 15

/-- `zext_16(nnn)`. -/
def zext16 (nnn : Imm12) : Word := nnn.setWidth 16

/-- `zext_16(V[0])`. -/
def zextByte (b : Byte) : Word := b.setWidth 16

/-- The target of Bnnn: a 16-bit sum, not reduced to 12 bits (spec/41_control_flow.md R109). -/
def jumpV0Target (v0 : Byte) (nnn : Imm12) : Word := zextByte v0 + zext16 nnn

end Sys2Proof.Machine
end

