-- ==== Sys2Proof/Machine/Ops.lean ====
section
/-! DEFINITION. The named operations over the state: plain updates, registers, program counter, call stack, the random byte,
fetch, and taking a fault (spec/40_step_cycle.md R90 to R97, spec/60_exceptions.md R160 to R168). -/

namespace Sys2Proof.Machine

/-! ## Plain updates, one per field -/

def State.setPc (s : State) (v : Word) : State := { s with pc := v }
def State.setMem (s : State) (v : Memory) : State := { s with mem := v }
def State.setI (s : State) (v : Word) : State := { s with I := v }
def State.setRegs (s : State) (v : Vector Byte 16) : State := { s with V := v }
def State.setStack (s : State) (v : Vector Word 48) : State := { s with stack := v }
def State.setSp (s : State) (v : Fin 49) : State := { s with sp := v }
def State.setDisp (s : State) (v : Display) : State := { s with disp := v }
def State.setDT (s : State) (v : Byte) : State := { s with DT := v }
def State.setST (s : State) (v : Byte) : State := { s with ST := v }
def State.setKey (s : State) (v : Vector Bool 16) : State := { s with key := v }
def State.setFSR (s : State) (v : Fsr) : State := { s with FSR := v }
def State.setRndDraws (s : State) (v : Nat) : State := { s with rndDraws := v }

/-! ## Registers (spec/10_state.md R21) -/

/-- `V[x]`. -/
def State.readV (s : State) (x : Reg) : Byte := s.V[x]

/-- `V[x] <- b`. -/
def State.writeV (s : State) (x : Reg) (b : Byte) : State := s.setRegs (s.V.set x.val b x.isLt)

/-! ## Program counter (spec/40_step_cycle.md R92, spec/41_control_flow.md R100) -/

/-- The advance of fetch: `pc <- pc + 2`. A meaning starts from the state at the start of the Step and advances it first, so
that a fault raised before the advance leaves `pc` at the faulting instruction (R96). -/
def State.advance (s : State) : State := s.setPc (s.pc + 2#16)

/-- A skip: "advance program counter by 2 more" when the condition holds. -/
def State.skipIf (s : State) (c : Bool) : State := if c then s.setPc (s.pc + 2#16) else s

/-! ## Call stack (spec/10_state.md R25, R26) -/

/-- `stack[sp] <- w; sp <- sp + 1`, or `none` when the stack is full. -/
def State.push (s : State) (w : Word) : Option State :=
  if h : s.sp.val < 48 then some ((s.setStack (s.stack.set s.sp.val w h)).setSp ⟨s.sp.val + 1, Nat.succ_lt_succ h⟩) else none

/-- `sp <- sp - 1`, with the entry then at `stack[sp]`, which is not cleared; `none` when the stack is empty. -/
def State.pop (s : State) : Option (Word × State) :=
  if h : 0 < s.sp.val then
    some (s.stack[s.sp.val - 1]'(by have := s.sp.isLt; omega), s.setSp ⟨s.sp.val - 1, by have := s.sp.isLt; omega⟩)
  else none

/-! ## The random byte (spec/42_load_alu.md R133, log entry 1) -/

/-- The free byte the next RND of `step` draws. -/
def State.randomByte (s : State) : Byte := Config.rng s.rndDraws

/-- The source moves on to its next byte; nothing moves it back (log entry 1). -/
def State.consumeRandom (s : State) : State := s.setRndDraws (s.rndDraws + 1)

/-! ## Taking a fault, and leaving the halt -/

/-- The cause codes (spec/60_exceptions.md R160). -/
def FaultCause.code : FaultCause → BitVec 3
  | .unsupported => 1#3
  | .stackOverflow => 2#3
  | .stackUnderflow => 3#3
  | .memOob => 4#3

/-- The fault commit (spec/40_step_cycle.md R96, spec/60_exceptions.md R167), on the state at the start of the Step: only FSR
changes. `ins` is the fetched instruction, or `none` when the fetch itself raised. -/
def State.takeFault (s : State) (c : FaultCause) (ins : Option Word) : State :=
  s.setFSR ⟨true, c.code, s.pc, ins.getD 0x0000#16, ins.isSome⟩

/-- The only way out of a fault is Reset or Initialize (spec/60_exceptions.md R168): the whole state is replaced by the reset
state (spec/70_reset_and_hazards.md R191, R192), FSR with it. DESIGN CHOICE (log entry 1): the model's own counter of random
bytes, which is no part of that state, stays, so that an RND after a Reset does not draw an earlier byte again. -/
def State.resetInPlace (s : State) : State := State.reset.setRndDraws s.rndDraws

/-- The engine is halted exactly when `FSR.valid = 1` (spec/10_state.md R32). -/
def State.halted (s : State) : Bool := s.FSR.valid

/-! ## Fetch (spec/40_step_cycle.md R91) -/

/-- The instruction at `pc`, or `none` when the fetch raises MEM_OOB (exactly when `pc > 4094`, spec/20_memory.md R58). -/
def State.fetch (s : State) : Option Word :=
  match memRead s.mem s.pc.toNat 2 with
  | some [hi, lo] => some (wordOfBytes hi lo)
  | some _ => none
  | none => none

/-! ## The parts of a Step that run no instruction -/

/-- The Step of a halted engine changes nothing (spec/40_step_cycle.md R97). Log entry 4. -/
def stepHalted (s : State) : Host.Outcome State Fault Refusal := .next s

/-- The Step whose fetch raises (spec/60_exceptions.md R164(a)). -/
def stepFetchFault (s : State) : Host.Outcome State Fault Refusal := .next (s.takeFault .memOob none)

/-- The Step whose instruction no row of the opcode map selects (spec/60_exceptions.md R161). -/
def stepUnsupported (ins : Word) (s : State) : Host.Outcome State Fault Refusal :=
  .next (s.takeFault .unsupported (some ins))

/-- The body of a Step (spec/40_step_cycle.md R90) over the meaning `run` of an instruction, with the checks in the order of
spec/60_exceptions.md R166. -/
def stepBy (run : Instr → State → Host.Outcome State Fault Refusal) (s : State) : Host.Outcome State Fault Refusal :=
  if s.halted then stepHalted s
  else
    match s.fetch with
    | none => stepFetchFault s
    | some ins =>
      match decodeWord ins with
      | .instr i => run i s
      | .unsupported ins' => stepUnsupported ins' s
      | .truncated => stepUnsupported ins s

end Sys2Proof.Machine
end

