-- ==== Sys2Proof/Machine/Control.lean ====
section
/-! DEFINITION. The control-flow instructions (spec/41_control_flow.md R100 to R109). A meaning starts from the state at the
start of the Step, with `pc = a`. -/

namespace Sys2Proof.Machine

/-- R101. -/
def execNop (s : State) : Host.Outcome State Fault Refusal := .next s.advance

/-- R102: pops into `pc`; STACK_UNDERFLOW on an empty stack. -/
def execRet (s : State) : Host.Outcome State Fault Refusal :=
  match s.advance.pop with
  | none => .next (s.takeFault .stackUnderflow (some (encode .ret)))
  | some (w, t) => .next (t.setPc w)

/-- R103. -/
def execJp (nnn : Imm12) (s : State) : Host.Outcome State Fault Refusal := .next (s.advance.setPc (zext16 nnn))

/-- R104: pushes `a + 2`; STACK_OVERFLOW on a full stack. -/
def execCall (nnn : Imm12) (s : State) : Host.Outcome State Fault Refusal :=
  match s.advance.push s.advance.pc with
  | none => .next (s.takeFault .stackOverflow (some (encode (.call nnn))))
  | some t => .next (t.setPc (zext16 nnn))

/-- R105. -/
def execSeImm (x : Reg) (nn : Byte) (s : State) : Host.Outcome State Fault Refusal :=
  .next (s.advance.skipIf (decide (s.readV x = nn)))

/-- R106. -/
def execSneImm (x : Reg) (nn : Byte) (s : State) : Host.Outcome State Fault Refusal :=
  .next (s.advance.skipIf (decide (s.readV x ≠ nn)))

/-- R107. -/
def execSeReg (x y : Reg) (s : State) : Host.Outcome State Fault Refusal :=
  .next (s.advance.skipIf (decide (s.readV x = s.readV y)))

/-- R108. -/
def execSneReg (x y : Reg) (s : State) : Host.Outcome State Fault Refusal :=
  .next (s.advance.skipIf (decide (s.readV x ≠ s.readV y)))

/-- R109: register 0 whatever the top nibble of `nnn` is. -/
def execJpV0 (nnn : Imm12) (s : State) : Host.Outcome State Fault Refusal :=
  .next (s.advance.setPc (jumpV0Target (s.readV 0) nnn))

end Sys2Proof.Machine
end

