-- ==== Sys2Proof/Machine/Framebuffer.lean ====
section
/-! DEFINITION. Operations on the framebuffer: one pixel, clearing, and drawing a sprite (spec/43_display.md R150 to R152,
spec/20_memory.md R54, R59). -/

namespace Sys2Proof.Machine

/-- `disp[cx, cy]`. -/
def pixelAt (d : Display) (cx : Fin 64) (cy : Fin 32) : Bool := d[cy][cx]

/-- `disp[cx, cy] <- b`. -/
def setPixel (d : Display) (cx : Fin 64) (cy : Fin 32) (b : Bool) : Display :=
  d.set cy.val (d[cy].set cx.val b cx.isLt) cy.isLt

/-- Every pixel 0. -/
def clearDisplay : Display := Vector.replicate 32 (Vector.replicate 64 false)

/-- `(px + col) mod 64`. -/
def pixelColumn (px : Byte) (col : Nat) : Fin 64 := ⟨(px.toNat + col) % 64, Nat.mod_lt _ (by decide)⟩

/-- `(py + row) mod 32`. -/
def pixelRow (py : Byte) (row : Nat) : Fin 32 := ⟨(py.toNat + row) % 32, Nat.mod_lt _ (by decide)⟩

/-- The sprite bit at column offset `col`, most significant bit first (spec/20_memory.md R54). -/
def spriteBit (b : Byte) (col : Nat) : Bool := b.getLsbD (7 - col)

/-- A sprite bit that is 1: note the collision if the pixel is set, then flip it. -/
def togglePixel (cx : Fin 64) (cy : Fin 32) (dh : Display × Bool) : Display × Bool :=
  (setPixel dh.1 cx cy (!pixelAt dh.1 cx cy), dh.2 || pixelAt dh.1 cx cy)

/-- One row of a sprite, over the column offsets listed. -/
def drawColumns (px py : Byte) (row : Nat) (b : Byte) : List Nat → Display × Bool → Display × Bool
  | [], dh => dh
  | col :: cols, dh =>
    drawColumns px py row b cols
      (if spriteBit b col then togglePixel (pixelColumn px col) (pixelRow py row) dh else dh)

/-- The rows of a sprite from row offset `row` on; the pair is the display and `hit`. -/
def drawRows (px py : Byte) : Nat → List Byte → Display × Bool → Display × Bool
  | _, [], dh => dh
  | row, b :: bs, dh => drawRows px py (row + 1) bs (drawColumns px py row b [0, 1, 2, 3, 4, 5, 6, 7] dh)

/-- The display and the collision after drawing a sprite with its corner at `(px, py)`. -/
def drawSprite (px py : Byte) (sprite : List Byte) (d : Display) : Display × Bool := drawRows px py 0 sprite (d, false)

end Sys2Proof.Machine
end

