-- ==== Sys2Proof/Machine/DisplayInstr.lean ====
section
/-! DEFINITION. The display instructions (spec/43_display.md R151, R152). -/

namespace Sys2Proof.Machine

/-- R151. -/
def execCls (s : State) : Host.Outcome State Fault Refusal := .next (s.advance.setDisp clearDisplay)

/-- R152: the coordinates are read before VF is written; MEM_OOB is raised before any pixel or VF is written. -/
def execDrw (x y : Reg) (n : Fin 16) (s : State) : Host.Outcome State Fault Refusal :=
  match memRead s.mem s.I.toNat n.val with
  | none => .next (s.takeFault .memOob (some (encode (.drw x y n))))
  | some sprite =>
    .next ((s.advance.setDisp (drawSprite (s.readV x) (s.readV y) sprite s.disp).1).writeV VF
      (flagByte (drawSprite (s.readV x) (s.readV y) sprite s.disp).2))

end Sys2Proof.Machine
end

