-- ==== Sys2Proof/Machine/LoadAlu.lean ====
section
/-! DEFINITION. The load, arithmetic and logic instructions (spec/42_load_alu.md R120 to R134). Assignments run in the order of
the spec's pseudocode, each reading the state the previous one left (R120, log entry 5). -/

namespace Sys2Proof.Machine

/-- R121. -/
def execLdImm (x : Reg) (nn : Byte) (s : State) : Host.Outcome State Fault Refusal := .next (s.advance.writeV x nn)

/-- R122: wrapping, no flag. -/
def execAddImm (x : Reg) (nn : Byte) (s : State) : Host.Outcome State Fault Refusal :=
  .next (s.advance.writeV x (addResult (s.readV x) nn))

/-- R123. -/
def execLdReg (x y : Reg) (s : State) : Host.Outcome State Fault Refusal := .next (s.advance.writeV x (s.readV y))

/-- R124. -/
def execOr (x y : Reg) (s : State) : Host.Outcome State Fault Refusal :=
  .next (s.advance.writeV x (s.readV x ||| s.readV y))

/-- R125. -/
def execAnd (x y : Reg) (s : State) : Host.Outcome State Fault Refusal :=
  .next (s.advance.writeV x (s.readV x &&& s.readV y))

/-- R126. -/
def execXor (x y : Reg) (s : State) : Host.Outcome State Fault Refusal :=
  .next (s.advance.writeV x (s.readV x ^^^ s.readV y))

/-- R127: the result, then the carry. -/
def execAddReg (x y : Reg) (s : State) : Host.Outcome State Fault Refusal :=
  .next ((s.advance.writeV x (addResult (s.readV x) (s.readV y))).writeV VF (addFlag (s.readV x) (s.readV y)))

/-- R128: the result, then 1 if no borrow. -/
def execSub (x y : Reg) (s : State) : Host.Outcome State Fault Refusal :=
  .next ((s.advance.writeV x (subResult (s.readV x) (s.readV y))).writeV VF (subFlag (s.readV x) (s.readV y)))

/-- The shift of SHR, on the state that VF has been written in. -/
def shrInPlace (x : Reg) (s : State) : State := s.writeV x (shrResult (s.readV x))

/-- R129: bit 0 to VF, then the shift in place; `y` takes no part (spec/30_encoding.md R75). -/
def execShr (x _y : Reg) (s : State) : Host.Outcome State Fault Refusal :=
  .next (shrInPlace x (s.advance.writeV VF (shrFlag (s.readV x))))

/-- R130: SUB with the operands exchanged; the destination is still `V[x]`. -/
def execSubn (x y : Reg) (s : State) : Host.Outcome State Fault Refusal :=
  .next ((s.advance.writeV x (subResult (s.readV y) (s.readV x))).writeV VF (subFlag (s.readV y) (s.readV x)))

/-- The shift of SHL, on the state that VF has been written in. -/
def shlInPlace (x : Reg) (s : State) : State := s.writeV x (shlResult (s.readV x))

/-- R131: bit 7 to VF, then the shift in place; `y` takes no part (spec/30_encoding.md R75). -/
def execShl (x _y : Reg) (s : State) : Host.Outcome State Fault Refusal :=
  .next (shlInPlace x (s.advance.writeV VF (shlFlag (s.readV x))))

/-- R132. -/
def execLdI (nnn : Imm12) (s : State) : Host.Outcome State Fault Refusal := .next (s.advance.setI (zext16 nnn))

/-- R133 with the Step's random byte `r` as an argument. -/
def rndWith (r : Byte) (x : Reg) (nn : Byte) (s : State) : State := s.advance.writeV x (r &&& nn)

/-- R133: the byte is the free value the source gives next (log entry 1); the host's Step gives its own to `rndWith`. -/
def execRnd (x : Reg) (nn : Byte) (s : State) : Host.Outcome State Fault Refusal :=
  .next (rndWith s.randomByte x nn s.consumeRandom)

end Sys2Proof.Machine
end

