-- ==== Sys2Proof/Machine/Step.lean ====
section
/-! DEFINITION. Step: fetch, decode and run one instruction (spec/40_step_cycle.md R90), and the placing of an instruction where
the next Step fetches. -/

namespace Sys2Proof.Machine

/-- One Step of the Engine, its random byte the free value that the counter `rndDraws` gives next (log entry 1); the Step that
is given its byte is `stepWith` in Machine/HostOps.lean, and what it reports (Ok, Fault, Halted) is `stepReport` there. -/
def step (s : State) : Host.Outcome State Fault Refusal := stepBy exec s

/-- The bytes of the word stored at `pc` and `pc + 1`: at reset this is the Load of those two bytes (log entry 8). -/
def State.withFetchWord (s : State) (nbits w : Nat) : State :=
  s.setMem (s.mem.writeBytes s.pc.toNat [highByte (tableWord nbits w), lowByte (tableWord nbits w)])

end Sys2Proof.Machine
end

