-- ==== Sys2Proof/Machine/HostOps.lean ====
section
/-! DEFINITION. The operations of the Host and the Timer: Initialize, Reset, Load, Tick, KeySet, ReadDisplay, ReadSoundActive, what
a Step reports, and any sequence of operations the host chooses (spec/00_scope.md R6, R7). -/

namespace Sys2Proof.Machine

/-! ## Initialize and Reset (spec/70_reset_and_hazards.md R190 to R192) -/

/-- Initialize: the state made at power-on, whatever the state before. DESIGN CHOICE (log entry 1): the model's own counter of
random bytes stays, as in `State.resetInPlace`. -/
def poweredOn (s : State) : State := State.reset.setRndDraws s.rndDraws

/-! ## Load (spec/70_reset_and_hazards.md R193 to R195) -/

/-- The result of a Load. -/
inductive LoadResult where
  | ok
  | loadCapacity
  deriving DecidableEq, Repr

/-- The number a model may give LoadCapacity (spec/60_exceptions.md R165); `FSR.cause` never holds it. -/
def LoadResult.code : LoadResult → Nat
  | .ok => 0
  | .loadCapacity => 5

/-- Load: all or nothing, at 0x200, in any state; nothing but memory changes. -/
def load (bytes : List Byte) (s : State) : State × LoadResult :=
  if Program.wellFormed bytes then (s.setMem (s.mem.writeBytes Config.progBase bytes), .ok) else (s, .loadCapacity)

/-! ## Timers (spec/60_exceptions.md R171 to R174) -/

/-- One timer's decrement: toward zero, never below. -/
def countDown (b : Byte) : Byte := if b = 0x00#8 then b else b - 1#8

/-- Tick: the two timers count down; the bit is `sound_edge`, 1 exactly when `ST` was 1 before. -/
def tick (s : State) : State × Bool := ((s.setDT (countDown s.DT)).setST (countDown s.ST), decide (s.ST = 0x01#8))

/-- `sound_active`. -/
def readSoundActive (s : State) : Bool := decide (s.ST ≠ 0x00#8)

/-! ## Keys, display, fault record -/

/-- KeySet (spec/60_exceptions.md R176). -/
def keySet (k : Fin 16) (b : Bool) (s : State) : State := s.setKey (s.key.set k.val b k.isLt)

/-- ReadDisplay (spec/60_exceptions.md R175): row-major, element `cy * 64 + cx` is `disp[cx, cy]`. -/
def readDisplay (s : State) : Vector Bool 2048 :=
  Vector.ofFn fun k : Fin 2048 =>
    pixelAt s.disp ⟨k.val % 64, Nat.mod_lt _ (by decide)⟩ ⟨k.val / 64, Nat.div_lt_of_lt_mul k.isLt⟩

/-- FSR, which the host reads whole (spec/10_state.md R32, spec/70_reset_and_hazards.md R199). -/
def readFSR (s : State) : Fsr := s.FSR

/-! ## Step, given its random byte (spec/40_step_cycle.md R90) -/

/-- The meanings with the Step's byte `r`: RND takes it (spec/42_load_alu.md R133), every other instruction runs as in `exec`. -/
def execWith (r : Byte) (i : Instr) (s : State) : Host.Outcome State Fault Refusal :=
  match i with
  | .rnd x nn => .next (rndWith r x nn s)
  | i => exec i s

/-- `Step(s, r)`. -/
def stepWith (r : Byte) (s : State) : Host.Outcome State Fault Refusal := stepBy (execWith r) s

/-! ## What a Step reports (spec/40_step_cycle.md R90) -/

/-- The outcome of a Step as the host sees it. -/
inductive StepReport where
  | ok
  | fault (cause : BitVec 3)
  | halted
  deriving DecidableEq, Repr

/-- The report of the Step from `s` to `t`. -/
def stepReport (s t : State) : StepReport :=
  if s.halted then .halted else if t.halted then .fault t.FSR.cause else .ok

/-! ## The host's choice of operations (spec/00_scope.md R7) -/

/-- The eight operations with their arguments; `powerOn` is Initialize, and `r` is the random byte of that Step. -/
inductive HostOp where
  | powerOn
  | reset
  | load (bytes : List Byte)
  | step (r : Byte)
  | tick
  | keySet (k : Fin 16) (b : Bool)
  | readDisplay
  | readSoundActive
  deriving DecidableEq, Repr

/-- What an operation returns to the host. -/
inductive Reply where
  | none
  | load (r : LoadResult)
  | step (r : StepReport)
  | tick (soundEdge : Bool)
  | display (pixels : Vector Bool 2048)
  | soundActive (b : Bool)
  deriving DecidableEq, Repr

/-- The host's Step: the Step with the byte the host supplies, and its report. -/
def hostStep (r : Byte) (s : State) : Host.Outcome (State × Reply) Fault Refusal :=
  match stepWith r s with
  | .next t => .next (t, .step (stepReport s t))
  | .fault e => .fault e
  | .refused e => .refused e

/-- One operation, one atomic transition of the whole state. -/
def HostOp.apply (op : HostOp) (s : State) : Host.Outcome (State × Reply) Fault Refusal :=
  match op with
  | .powerOn => .next (poweredOn s, .none)
  | .reset => .next (s.resetInPlace, .none)
  | .load bytes => .next ((Sys2Proof.Machine.load bytes s).1, .load (Sys2Proof.Machine.load bytes s).2)
  | .step r => hostStep r s
  | .tick => .next ((Sys2Proof.Machine.tick s).1, .tick (Sys2Proof.Machine.tick s).2)
  | .keySet k b => .next (Sys2Proof.Machine.keySet k b s, .none)
  | .readDisplay => .next (s, .display (Sys2Proof.Machine.readDisplay s))
  | .readSoundActive => .next (s, .soundActive (Sys2Proof.Machine.readSoundActive s))

/-- The operations on the machine state alone, the tuple of spec/10_state.md R20 and nothing beside it: Step(s, r) of
spec/40_step_cycle.md R90 and the others. The source of `step` takes no part, so the index it is put at is of no account. -/
def MachineState.apply (op : HostOp) (m : MachineState) : Host.Outcome (MachineState × Reply) Fault Refusal :=
  match op.apply { m with rndDraws := 0 } with
  | .next (t, r) => .next (t.toMachineState, r)
  | .fault e => .fault e
  | .refused e => .refused e

/-- Any sequence of operations, in the order the host chooses, with their replies. -/
def HostOp.run : List HostOp → State → Host.Outcome (State × List Reply) Fault Refusal
  | [], s => .next (s, [])
  | op :: ops, s =>
    match op.apply s with
    | .next (t, r) =>
      match HostOp.run ops t with
      | .next (u, rs) => .next (u, r :: rs)
      | .fault e => .fault e
      | .refused e => .refused e
    | .fault e => .fault e
    | .refused e => .refused e

end Sys2Proof.Machine
end

