-- ==== Sys2Proof/Safety.lean ====
section
/-! DEFINITION. The terms claims are stated in: what a completed instruction leaves alone, the invariant of reachable states, and
the end of a run. -/

namespace Sys2Proof

open Machine

/-- What no completed instruction writes (spec/40_step_cycle.md R95): every byte of memory, the timers, the keys, FSR. -/
structure Untouched (s t : State) : Prop where
  mem : ∀ a, t.mem.read a = s.mem.read a
  DT : t.DT = s.DT
  ST : t.ST = s.ST
  key : t.key = s.key
  FSR : t.FSR = s.FSR

/-- Nothing but `pc` and the registers listed may have changed. -/
structure OnlyRegs (l : List Reg) (s t : State) : Prop extends Untouched s t where
  regs : ∀ k : Reg, k ∉ l → t.readV k = s.readV k
  I : t.I = s.I
  stack : t.stack = s.stack
  sp : t.sp = s.sp
  disp : t.disp = s.disp
  rndDraws : t.rndDraws = s.rndDraws

/-- Nothing but `pc`, `sp` and the stack entry `k` may have changed. -/
structure OnlyStackEntry (k : Nat) (s t : State) : Prop extends Untouched s t where
  regs : ∀ r : Reg, t.readV r = s.readV r
  I : t.I = s.I
  stack : ∀ j : Fin 48, j.val ≠ k → t.stack[j] = s.stack[j]
  disp : t.disp = s.disp
  rndDraws : t.rndDraws = s.rndDraws

/-- Nothing but `pc`, the display and the registers listed may have changed. -/
structure OnlyDisplayAndRegs (l : List Reg) (s t : State) : Prop extends Untouched s t where
  regs : ∀ k : Reg, k ∉ l → t.readV k = s.readV k
  I : t.I = s.I
  stack : t.stack = s.stack
  sp : t.sp = s.sp
  rndDraws : t.rndDraws = s.rndDraws

/-- Some 1 bit of the sprite that Dxyn would draw from state `s` lands on the pixel `(cx, cy)` (spec/43_display.md R152): bit
`7 - col` of the byte at `I + row`, at `((V[x] + col) mod 64, (V[y] + row) mod 32)`. -/
def SpriteCovers (s : State) (x y : Reg) (n : Fin 16) (cx : Fin 64) (cy : Fin 32) : Prop :=
  ∃ row col : Nat, row < n.val ∧ col < 8 ∧ (s.mem.read (s.I.toNat + row)).getLsbD (7 - col) = true ∧
    cx.val = ((s.readV x).toNat + col) % 64 ∧ cy.val = ((s.readV y).toNat + row) % 32

/-- The state a fault leaves (spec/40_step_cycle.md R96): `s` with FSR written and nothing else. -/
def Faulted (s : State) (cause : BitVec 3) (instr : Word) (instrValid : Bool) : State :=
  { s with FSR := { valid := true, cause := cause, pc := s.pc, instr := instr, instrValid := instrValid } }

/-- What holds of every state the operations reach from reset, and of others. -/
structure Inv (s : State) : Prop where
  /-- Memory is in canonical form, inside the array. -/
  mem : s.mem.wf = true
  /-- Below 0x200 memory holds its reset contents: no operation writes there (spec/20_memory.md R52). -/
  lowMem : ∀ a < 0x200, s.mem.read a = resetByte a
  /-- Bits 15 to 12 of `I` are 0 (spec/10_state.md R24). -/
  I : s.I.toNat ≤ 0x0FFF
  /-- The largest value any rule writes to `pc` (spec/10_state.md R23). -/
  pc : s.pc.toNat ≤ 0x10FE
  /-- A return address is the address after a fetched instruction. -/
  stack : ∀ k : Fin 48, s.stack[k].toNat ≤ 4096
  /-- FSR is all 0 while no fault has been taken (spec/10_state.md R32). -/
  fsrClear : s.FSR.valid = false → s.FSR = Fsr.clear
  /-- Codes 5, 6, 7 are never written, and 0 only while `valid = 0` (spec/10_state.md R32). -/
  fsrCause : s.FSR.valid = true → 1 ≤ s.FSR.cause.toNat ∧ s.FSR.cause.toNat ≤ 4
  /-- Faults are precise: `pc` still addresses the faulting instruction (spec/60_exceptions.md R167). -/
  fsrPc : s.FSR.valid = true → s.FSR.pc = s.pc
  /-- A fetch that faulted recorded no instruction (spec/60_exceptions.md R164(a)). -/
  fsrFetch : s.FSR.valid = true → s.FSR.instrValid = false → s.FSR.instr = 0#16 ∧ s.FSR.cause = 4#3 ∧ 4094 < s.pc.toNat

/-- A running engine that every further Step leaves as it is (spec/40_step_cycle.md R97). -/
def Idle (s : State) : Prop := s.halted = false ∧ step s = .next s

/-- The end of a run (spec/40_step_cycle.md R97): a fault taken (never a good end), or an idle loop. -/
def RunEnded (s : State) : Prop := s.halted = true ∨ Idle s

/-- The registers each instruction may write (the table of spec/10_state.md R21). -/
def writtenRegs : Instr → List Reg
  | .nop => []
  | .cls => []
  | .ret => []
  | .jp _ => []
  | .call _ => []
  | .seImm _ _ => []
  | .sneImm _ _ => []
  | .seReg _ _ => []
  | .ldImm x _ => [x]
  | .addImm x _ => [x]
  | .ldReg x _ => [x]
  | .or x _ => [x]
  | .and x _ => [x]
  | .xor x _ => [x]
  | .addReg x _ => [x, 15]
  | .sub x _ => [x, 15]
  | .shr x _ => [15, x]
  | .subn x _ => [x, 15]
  | .shl x _ => [15, x]
  | .sneReg _ _ => []
  | .ldI _ => []
  | .jpV0 _ => []
  | .rnd x _ => [x]
  | .drw _ _ _ => [15]

end Sys2Proof
end

