-- ==== Sys2Proof/Certificates/Slice0/Obligations.lean ====
section
/-! DEFINITION. The statements for the provers, from the numbered rules of spec/. -/

open Sys2Proof Sys2Proof.Machine

/-! ## Encoding and decoding -/

/-- Formats of spec/30_encoding.md R71: the decoder reads back every operand the encoder lays down, from a word and from
bytes in memory order, whatever follows. -/
def Obligations.DecodeOfEncodeIsTheInstruction : Prop :=
  ∀ (i : Instr) (rest : List Byte),
    decodeWord (encode i) = .instr i ∧ decode (encodeBytes i ++ rest) = (.instr i, rest)

/-- The other direction: no bit of a legal word is dropped (spec/30_encoding.md R74, R75). That the don't-care nibble `y` of SHR and
SHL comes back too is the model's choice, since its constructors keep it (log entry 12); the spec has the 16 values of `y`
select one instruction. -/
def Obligations.EncodeOfDecodeIsTheWord : Prop :=
  ∀ (ins : Word) (i : Instr), decodeWord ins = .instr i → encode i = ins

/-- spec/30_encoding.md R73. -/
def Obligations.EveryWordSelectsOneRowOrIsUnsupported : Prop :=
  ∀ ins : Word,
    (∀ m : Mnemonic, m.selects ins ↔ ∃ i, decodeWord ins = .instr i ∧ i.mnemonic = m) ∧
    (decodeWord ins = .unsupported ins ↔ ∀ m : Mnemonic, ¬ m.selects ins) ∧
    (∀ m m' : Mnemonic, m.selects ins → m'.selects ins → m = m')

/-- The sets of spec/30_encoding.md R76, by arithmetic on the value. -/
def Obligations.UnsupportedWordsAreExactlyTheListedSets : Prop :=
  ∀ ins : Word, decodeWord ins = .unsupported ins ↔
    (ins.toNat < 0x1000 ∧ ins.toNat ≠ 0 ∧ ins.toNat ≠ 0xE0 ∧ ins.toNat ≠ 0xEE) ∨
    (ins.toNat / 4096 = 0x5 ∧ ins.toNat % 16 ≠ 0) ∨
    (ins.toNat / 4096 = 0x8 ∧ 8 ≤ ins.toNat % 16 ∧ ins.toNat % 16 ≠ 0xE) ∨
    (ins.toNat / 4096 = 0x9 ∧ ins.toNat % 16 ≠ 0) ∨
    0xE000 ≤ ins.toNat

/-- spec/40_step_cycle.md R93, by arithmetic on the value. -/
def Obligations.FieldsAreTheSlicesOfTheWord : Prop :=
  ∀ ins : Word,
    (fieldOp ins).val = ins.toNat / 4096 ∧ (fieldX ins).val = ins.toNat / 256 % 16 ∧
    (fieldY ins).val = ins.toNat / 16 % 16 ∧ (fieldN ins).val = ins.toNat % 16 ∧
    (fieldNN ins).toNat = ins.toNat % 256 ∧ (fieldNNN ins).toNat = ins.toNat % 4096

/-- Words of spec/95_test_vectors.md 2.1: one or more of each of the 16 families, the top nibbles 0 to F. -/
def Obligations.SampleWordsDecodeAsListed : Prop :=
  decodeWord 0x0000#16 = .instr .nop ∧ decodeWord 0x00E0#16 = .instr .cls ∧ decodeWord 0x00EE#16 = .instr .ret ∧
  decodeWord 0x1ABC#16 = .instr (.jp 0xABC#12) ∧ decodeWord 0x2208#16 = .instr (.call 0x208#12) ∧
  decodeWord 0x3A7F#16 = .instr (.seImm 0xA 0x7F#8) ∧ decodeWord 0x4F00#16 = .instr (.sneImm 0xF 0x00#8) ∧
  decodeWord 0x5AB0#16 = .instr (.seReg 0xA 0xB) ∧ decodeWord 0x6C2A#16 = .instr (.ldImm 0xC 0x2A#8) ∧
  decodeWord 0x71FF#16 = .instr (.addImm 1 0xFF#8) ∧ decodeWord 0x8124#16 = .instr (.addReg 1 2) ∧
  decodeWord 0x812E#16 = .instr (.shl 1 2) ∧ decodeWord 0x9AB0#16 = .instr (.sneReg 0xA 0xB) ∧
  decodeWord 0xA20C#16 = .instr (.ldI 0x20C#12) ∧ decodeWord 0xB300#16 = .instr (.jpV0 0x300#12) ∧
  decodeWord 0xC10F#16 = .instr (.rnd 1 0x0F#8) ∧ decodeWord 0xD015#16 = .instr (.drw 0 1 5) ∧
  decodeWord 0x8008#16 = .unsupported 0x8008#16 ∧ decodeWord 0xE19E#16 = .unsupported 0xE19E#16 ∧
  decodeWord 0xF00A#16 = .unsupported 0xF00A#16

/-! ## Memory access -/

/-- spec/20_memory.md R57. -/
def Obligations.MemReadChecksTheWholeAccess : Prop :=
  ∀ (m : Memory) (addr n : Nat),
    (n = 0 → memRead m addr n = some []) ∧
    (0 < n → addr + n - 1 ≤ 4095 →
      ∃ bytes, memRead m addr n = some bytes ∧ bytes.length = n ∧ ∀ k < n, bytes[k]? = some (m.read (addr + k))) ∧
    (0 < n → 4095 < addr + n - 1 → memRead m addr n = none)

/-- spec/20_memory.md R53 and R58. No lower bound and no alignment is checked: the spec's own decisions D3 and D4
(log entry 6). -/
def Obligations.FetchIsBigEndianAndBounded : Prop :=
  ∀ s : State,
    (s.pc.toNat ≤ 4094 → ∃ ins, s.fetch = some ins ∧
      ins.toNat = (s.mem.read s.pc.toNat).toNat * 256 + (s.mem.read (s.pc.toNat + 1)).toNat) ∧
    (4094 < s.pc.toNat → s.fetch = none)

/-! ## The Step -/

/-- spec/40_step_cycle.md R90: a running engine whose bytes at `pc` decode to `i` runs `exec i` on the state at the start of
the Step. That `exec` takes the state with `pc` still at the instruction, so that the meaning itself moves `pc` past the word and
`step` adds nothing, is the model's choice (log entry 15); R90 and R92 put that advance in the Step, before the rule runs. -/
def Obligations.StepRunsTheDecodedInstruction : Prop :=
  ∀ (s : State) (ins : Word) (i : Instr),
    s.halted = false → s.fetch = some ins → decodeWord ins = .instr i → step s = exec i s

/-- spec/40_step_cycle.md R97, the spec's own decision D9 (log entry 4). -/
def Obligations.HaltedStepChangesNothing : Prop :=
  ∀ s : State, s.FSR.valid = true →
    step s = .next s ∧ ∀ r : Byte, HostOp.apply (.step r) s = .next (s, .step .halted)

/-- spec/60_exceptions.md R164(a). The record and the commit are the spec's own decisions D6 to D8 (log entry 3). -/
def Obligations.FetchPastMemoryTakesMemOob : Prop :=
  ∀ s : State, s.halted = false → 4094 < s.pc.toNat →
    step s = .next (Faulted s 4#3 0x0000#16 false) ∧
    ∀ r : Byte, HostOp.apply (.step r) s = .next (Faulted s 4#3 0x0000#16 false, .step (.fault 4#3))

/-- spec/60_exceptions.md R161. The record and the commit are the spec's own decisions D6 to D8 (log entry 3). -/
def Obligations.UnmatchedWordTakesUnsupported : Prop :=
  ∀ (s : State) (ins : Word), s.halted = false → s.fetch = some ins → (∀ m : Mnemonic, ¬ m.selects ins) →
    step s = .next (Faulted s 1#3 ins true) ∧
    ∀ r : Byte, HostOp.apply (.step r) s = .next (Faulted s 1#3 ins true, .step (.fault 1#3))

/-- spec/40_step_cycle.md R96 and spec/60_exceptions.md R166, R167, over every Step that takes a fault: nothing but FSR changes, and
FSR holds the address, the instruction and the cause of the only condition that held. Record and commit are the spec's own
decisions D6 to D8 (log entry 3). -/
def Obligations.EveryFaultIsPrecise : Prop :=
  ∀ s t : State, s.halted = false → step s = .next t → t.halted = true →
    ∃ (cause : BitVec 3) (instr : Word) (instrValid : Bool), t = Faulted s cause instr instrValid ∧
      ((cause = 4#3 ∧ instrValid = false ∧ instr = 0x0000#16 ∧ 4094 < s.pc.toNat) ∨
       (instrValid = true ∧ s.fetch = some instr ∧
         ((cause = 1#3 ∧ ∀ m : Mnemonic, ¬ m.selects instr) ∨
          (cause = 2#3 ∧ (∃ nnn, decodeWord instr = .instr (.call nnn)) ∧ s.sp.val = 48) ∨
          (cause = 3#3 ∧ decodeWord instr = .instr .ret ∧ s.sp.val = 0) ∨
          (cause = 4#3 ∧ ∃ x y n, decodeWord instr = .instr (.drw x y n) ∧ 0 < n.val ∧ 4095 < s.I.toNat + n.val - 1))))

/-- spec/40_step_cycle.md R95, for `step` and for the host's Step on any byte `r`. -/
def Obligations.CompletedStepCommitsOneInstruction : Prop :=
  ∀ s t : State, s.halted = false → step s = .next t → t.halted = false →
    (∃ ins i, s.fetch = some ins ∧ decodeWord ins = .instr i ∧ exec i s = .next t) ∧
    Untouched s t ∧ ∀ r : Byte, ∃ u, HostOp.apply (.step r) s = .next (u, .step .ok) ∧ u.halted = false ∧ Untouched s u

/-- spec/40_step_cycle.md R90: Step is total, and so is every operation of the host. That a Step which faults and a Step of a
halted engine are next states too, so that none ends in a model fault or refusal, is the model's reading (log entries 3 and 4);
R90 names their outcomes Fault(c) and Halted. -/
def Obligations.EveryOperationAnswersANextState : Prop :=
  (∀ s : State, ∃ t, step s = .next t) ∧
  ∀ (ops : List HostOp) (s : State), ∃ t replies, HostOp.run ops s = .next (t, replies) ∧ replies.length = ops.length

/-- Who writes what (spec/10_state.md R24 to R31, spec/20_memory.md R56): `I` only LD I, the stack only CALL, `sp` only CALL and RET, the
display only CLS and DRW, the model's own counter of random bytes only RND (log entry 1), memory, timers and keys nothing. FSR
only a fault of RET, CALL or DRW (the causes of spec/60_exceptions.md R160; the record is the spec's own decision D7, taken as a
next state, log entry 3). -/
def Obligations.EachElementHasOnlyItsNamedWriters : Prop :=
  ∀ (i : Instr) (s t : State), exec i s = .next t →
    t.mem = s.mem ∧ t.DT = s.DT ∧ t.ST = s.ST ∧ t.key = s.key ∧
    (t.I ≠ s.I → i.mnemonic = .LD_I) ∧
    (t.stack ≠ s.stack → i.mnemonic = .CALL) ∧
    (t.sp ≠ s.sp → i.mnemonic = .CALL ∨ i.mnemonic = .RET) ∧
    (t.disp ≠ s.disp → i.mnemonic = .CLS ∨ i.mnemonic = .DRW) ∧
    (t.rndDraws ≠ s.rndDraws → i.mnemonic = .RND) ∧
    (t.FSR ≠ s.FSR → i.mnemonic = .RET ∨ i.mnemonic = .CALL ∨ i.mnemonic = .DRW)

/-- The table of spec/10_state.md R21: an instruction writes no register but those listed for it. -/
def Obligations.RegistersOutsideTheTableAreKept : Prop :=
  ∀ (i : Instr) (s t : State) (k : Reg), exec i s = .next t → k ∉ writtenRegs i → t.readV k = s.readV k

/-- spec/40_step_cycle.md R97: the only instructions that leave every element of a running machine unchanged are a jump to its own
address, 1nnn or Bnnn. -/
def Obligations.IdleLoopsAreExactlyJumpsToSelf : Prop :=
  ∀ s : State, Idle s ↔ s.halted = false ∧ ∃ ins nnn, s.fetch = some ins ∧
    ((decodeWord ins = .instr (.jp nnn) ∧ nnn.toNat = s.pc.toNat) ∨
     (decodeWord ins = .instr (.jpV0 nnn) ∧ (s.readV 0).toNat + nnn.toNat = s.pc.toNat))

/-! ## Invariants -/

/-- The invariant holds after reset. -/
def Obligations.ResetMeetsTheInvariant : Prop := Inv State.reset

/-- Every Step keeps the invariant: memory canonical and its low part unwritten, `I` within 12 bits, `pc` and return addresses bounded,
FSR consistent (its `pc` and its form are the spec's own decisions D6 and D7, log entry 3). -/
def Obligations.EveryStepKeepsTheInvariant : Prop :=
  ∀ s t : State, Inv s → step s = .next t → Inv t

/-- Every operation the host may choose keeps the invariant: the bounds of `pc` and `I` (spec/10_state.md R23, R24), the low part of
memory (spec/20_memory.md R52), through any order of operations (spec/00_scope.md R7, spec/70_reset_and_hazards.md R202). The clauses
on FSR rest on the spec's own decisions D6 (the halted `pc`) and D7 (the record), log entry 3; what Load writes on D16, log
entry 9. -/
def Obligations.EveryHostOperationKeepsTheInvariant : Prop :=
  ∀ (op : HostOp) (s t : State) (r : Reply), Inv s → op.apply s = .next (t, r) → Inv t

/-- spec/20_memory.md R61: Step and Tick commute, and KeySet commutes with both. -/
def Obligations.StepTickAndKeySetCommute : Prop :=
  (∀ s t : State, step s = .next t →
    step (tick s).1 = .next (tick t).1 ∧ (tick t).2 = (tick s).2 ∧
    ∀ (k : Fin 16) (b : Bool), step (keySet k b s) = .next (keySet k b t)) ∧
  ∀ (s : State) (k : Fin 16) (b : Bool), tick (keySet k b s) = (keySet k b (tick s).1, (tick s).2)

/-! ## Control flow -/

/-- spec/41_control_flow.md R101. -/
def Obligations.NopOnlyAdvances : Prop :=
  decodeWord 0x0000#16 = .instr .nop ∧
  (∀ ins : Word, ins.toNat < 0x1000 → ins ≠ 0x0000#16 → ins ≠ 0x00E0#16 → ins ≠ 0x00EE#16 → decodeWord ins = .unsupported ins) ∧
  ∀ s : State, ∃ t, exec .nop s = .next t ∧ t.pc = s.pc + 2#16 ∧ OnlyRegs [] s t

/-- spec/41_control_flow.md R103. -/
def Obligations.JumpSetsPc : Prop :=
  (∀ ins : Word, ins &&& 0xF000#16 = 0x1000#16 → decodeWord ins = .instr (.jp (fieldNNN ins))) ∧
  ∀ (nnn : Imm12) (s : State), ∃ t, exec (.jp nnn) s = .next t ∧ t.pc.toNat = nnn.toNat ∧ OnlyRegs [] s t

/-- spec/41_control_flow.md R109: the sum is not reduced to 12 bits and never overflows 16. -/
def Obligations.JumpV0AddsRegisterZero : Prop :=
  (∀ ins : Word, ins &&& 0xF000#16 = 0xB000#16 → decodeWord ins = .instr (.jpV0 (fieldNNN ins))) ∧
  ∀ (nnn : Imm12) (s : State), ∃ t, exec (.jpV0 nnn) s = .next t ∧
    t.pc.toNat = (s.readV 0).toNat + nnn.toNat ∧ t.pc.toNat ≤ 0x10FE ∧ OnlyRegs [] s t

/-- spec/41_control_flow.md R104 on a stack that is not full. That `sp` counts entries from 0 is the spec's own decision D5
(log entry 7). -/
def Obligations.CallPushesTheReturnAddress : Prop :=
  ∀ (nnn : Imm12) (s : State) (h : s.sp.val < 48), ∃ t, exec (.call nnn) s = .next t ∧
    t.pc.toNat = nnn.toNat ∧ t.sp.val = s.sp.val + 1 ∧ t.stack[s.sp.val] = s.pc + 2#16 ∧ OnlyStackEntry s.sp.val s t

/-- spec/41_control_flow.md R104, spec/60_exceptions.md R162: CALL on a full stack. The record is the spec's own decisions D6 to D8 (log
entry 3). -/
def Obligations.CallOnFullStackTakesStackOverflow : Prop :=
  ∀ (nnn : Imm12) (s : State), s.sp.val = 48 →
    exec (.call nnn) s = .next (Faulted s 2#3 (BitVec.ofNat 16 (0x2000 + nnn.toNat)) true)

/-- spec/41_control_flow.md R102 on a stack that is not empty. The counting of `sp` and the entry left as it is are the spec's own
decisions D5 and D19 (log entry 7). -/
def Obligations.ReturnPopsIntoPc : Prop :=
  ∀ (s : State) (h : 0 < s.sp.val), ∃ t, exec .ret s = .next t ∧
    t.pc = s.stack[s.sp.val - 1]'(by have := s.sp.isLt; omega) ∧ t.sp.val = s.sp.val - 1 ∧ t.stack = s.stack ∧
    OnlyStackEntry 0 s t

/-- spec/41_control_flow.md R102, spec/60_exceptions.md R163: RET on an empty stack. The record is the spec's own decisions D6 to D8 (log
entry 3). -/
def Obligations.ReturnOnEmptyStackTakesStackUnderflow : Prop :=
  ∀ s : State, s.sp.val = 0 → exec .ret s = .next (Faulted s 3#3 0x00EE#16 true)

/-- The property of spec/41_control_flow.md R104: CALL then RET comes back to the instruction after the CALL with `sp` as it was
(counting as decision D5, log entry 7). -/
def Obligations.CallThenReturnComesBack : Prop :=
  ∀ (nnn : Imm12) (s : State), s.sp.val < 48 → ∃ t u, exec (.call nnn) s = .next t ∧ exec .ret t = .next u ∧
    u.pc = s.pc + 2#16 ∧ u.sp = s.sp ∧ OnlyStackEntry s.sp.val s u

/-- spec/41_control_flow.md R105 and R106: for every state exactly one of the two skips. -/
def Obligations.ImmediateSkipsCompareAllEightBits : Prop :=
  (∀ ins : Word, ins &&& 0xF000#16 = 0x3000#16 → decodeWord ins = .instr (.seImm (fieldX ins) (fieldNN ins))) ∧
  (∀ ins : Word, ins &&& 0xF000#16 = 0x4000#16 → decodeWord ins = .instr (.sneImm (fieldX ins) (fieldNN ins))) ∧
  ∀ (x : Reg) (nn : Byte) (s : State),
    (∃ t, exec (.seImm x nn) s = .next t ∧ OnlyRegs [] s t ∧
      t.pc = if (s.readV x).toNat = nn.toNat then s.pc + 4#16 else s.pc + 2#16) ∧
    (∃ t, exec (.sneImm x nn) s = .next t ∧ OnlyRegs [] s t ∧
      t.pc = if (s.readV x).toNat = nn.toNat then s.pc + 2#16 else s.pc + 4#16)

/-- spec/41_control_flow.md R107 and R108: `x = y` always skips for SE and never for SNE; other low nibbles are illegal. -/
def Obligations.RegisterSkipsCompareRegisters : Prop :=
  (∀ ins : Word, ins &&& 0xF00F#16 = 0x5000#16 → decodeWord ins = .instr (.seReg (fieldX ins) (fieldY ins))) ∧
  (∀ ins : Word, ins &&& 0xF00F#16 = 0x9000#16 → decodeWord ins = .instr (.sneReg (fieldX ins) (fieldY ins))) ∧
  (∀ ins : Word, (ins &&& 0xF000#16 = 0x5000#16 ∨ ins &&& 0xF000#16 = 0x9000#16) → ins &&& 0x000F#16 ≠ 0#16 →
    decodeWord ins = .unsupported ins) ∧
  ∀ (x y : Reg) (s : State),
    (∃ t, exec (.seReg x y) s = .next t ∧ OnlyRegs [] s t ∧
      t.pc = if (s.readV x).toNat = (s.readV y).toNat then s.pc + 4#16 else s.pc + 2#16) ∧
    (∃ t, exec (.sneReg x y) s = .next t ∧ OnlyRegs [] s t ∧
      t.pc = if (s.readV x).toNat = (s.readV y).toNat then s.pc + 2#16 else s.pc + 4#16)

/-! ## Loads, arithmetic and logic -/

/-- spec/42_load_alu.md R121 and R123. -/
def Obligations.LoadsSetOnlyTheirRegister : Prop :=
  (∀ ins : Word, ins &&& 0xF000#16 = 0x6000#16 → decodeWord ins = .instr (.ldImm (fieldX ins) (fieldNN ins))) ∧
  (∀ ins : Word, ins &&& 0xF00F#16 = 0x8000#16 → decodeWord ins = .instr (.ldReg (fieldX ins) (fieldY ins))) ∧
  (∀ (x : Reg) (nn : Byte) (s : State), ∃ t, exec (.ldImm x nn) s = .next t ∧
    t.readV x = nn ∧ t.pc = s.pc + 2#16 ∧ OnlyRegs [x] s t) ∧
  (∀ (x y : Reg) (s : State), ∃ t, exec (.ldReg x y) s = .next t ∧
    t.readV x = s.readV y ∧ t.pc = s.pc + 2#16 ∧ OnlyRegs [x] s t)

/-- spec/42_load_alu.md R122: modulo 256, VF a plain register. -/
def Obligations.AddImmediateWrapsWithoutFlag : Prop :=
  (∀ ins : Word, ins &&& 0xF000#16 = 0x7000#16 → decodeWord ins = .instr (.addImm (fieldX ins) (fieldNN ins))) ∧
  ∀ (x : Reg) (nn : Byte) (s : State), ∃ t, exec (.addImm x nn) s = .next t ∧
    (t.readV x).toNat = ((s.readV x).toNat + nn.toNat) % 256 ∧ t.pc = s.pc + 2#16 ∧ OnlyRegs [x] s t

/-- spec/42_load_alu.md R124 to R126, bit by bit; VF is untouched unless `x = 15`. -/
def Obligations.LogicActsOnEachBit : Prop :=
  (∀ ins : Word, ins &&& 0xF00F#16 = 0x8001#16 → decodeWord ins = .instr (.or (fieldX ins) (fieldY ins))) ∧
  (∀ ins : Word, ins &&& 0xF00F#16 = 0x8002#16 → decodeWord ins = .instr (.and (fieldX ins) (fieldY ins))) ∧
  (∀ ins : Word, ins &&& 0xF00F#16 = 0x8003#16 → decodeWord ins = .instr (.xor (fieldX ins) (fieldY ins))) ∧
  ∀ (x y : Reg) (s : State),
    (∃ t, exec (.or x y) s = .next t ∧ t.pc = s.pc + 2#16 ∧ OnlyRegs [x] s t ∧
      ∀ k < 8, (t.readV x).getLsbD k = ((s.readV x).getLsbD k || (s.readV y).getLsbD k)) ∧
    (∃ t, exec (.and x y) s = .next t ∧ t.pc = s.pc + 2#16 ∧ OnlyRegs [x] s t ∧
      ∀ k < 8, (t.readV x).getLsbD k = ((s.readV x).getLsbD k && (s.readV y).getLsbD k)) ∧
    (∃ t, exec (.xor x y) s = .next t ∧ t.pc = s.pc + 2#16 ∧ OnlyRegs [x] s t ∧
      ∀ k < 8, (t.readV x).getLsbD k = ((s.readV x).getLsbD k != (s.readV y).getLsbD k))

/-- spec/42_load_alu.md R127. That VF ends as the flag when `x = 15` is the spec's own decision D10 (log entry 5). -/
def Obligations.AddRegistersSetsCarry : Prop :=
  ∀ (x y : Reg) (s : State), ∃ t, exec (.addReg x y) s = .next t ∧ t.pc = s.pc + 2#16 ∧ OnlyRegs [x, 15] s t ∧
    (x ≠ 15 → (t.readV x).toNat = ((s.readV x).toNat + (s.readV y).toNat) % 256) ∧
    t.readV 15 = if 255 < (s.readV x).toNat + (s.readV y).toNat then 0x01#8 else 0x00#8

/-- spec/42_load_alu.md R128. That VF ends as the flag when `x = 15` is the spec's own decision D10 (log entry 5). -/
def Obligations.SubtractSetsNoBorrow : Prop :=
  ∀ (x y : Reg) (s : State), ∃ t, exec (.sub x y) s = .next t ∧ t.pc = s.pc + 2#16 ∧ OnlyRegs [x, 15] s t ∧
    (x ≠ 15 → (t.readV x).toNat = ((s.readV x).toNat + 256 - (s.readV y).toNat) % 256) ∧
    t.readV 15 = if (s.readV x).toNat < (s.readV y).toNat then 0x00#8 else 0x01#8

/-- spec/42_load_alu.md R130. That VF ends as the flag when `x = 15` is the spec's own decision D10 (log entry 5). -/
def Obligations.SubtractReversedSetsNoBorrow : Prop :=
  ∀ (x y : Reg) (s : State), ∃ t, exec (.subn x y) s = .next t ∧ t.pc = s.pc + 2#16 ∧ OnlyRegs [x, 15] s t ∧
    (x ≠ 15 → (t.readV x).toNat = ((s.readV y).toNat + 256 - (s.readV x).toNat) % 256) ∧
    t.readV 15 = if (s.readV y).toNat < (s.readV x).toNat then 0x00#8 else 0x01#8

/-- spec/42_load_alu.md R129, for every value of the ignored nibble `y`. What VF holds when `x = 15` is the spec's own decision D10
(log entry 5). -/
def Obligations.ShiftRightSetsLowBit : Prop :=
  ∀ (x y : Reg) (s : State), ∃ t, exec (.shr x y) s = .next t ∧ t.pc = s.pc + 2#16 ∧ OnlyRegs [x, 15] s t ∧
    (x ≠ 15 → (t.readV x).toNat = (s.readV x).toNat / 2 ∧ (t.readV 15).toNat = (s.readV x).toNat % 2) ∧
    (x = 15 → t.readV 15 = 0x00#8)

/-- spec/42_load_alu.md R131, for every value of the ignored nibble `y`. What VF holds when `x = 15` is the spec's own decision D10
(log entry 5). -/
def Obligations.ShiftLeftSetsHighBit : Prop :=
  ∀ (x y : Reg) (s : State), ∃ t, exec (.shl x y) s = .next t ∧ t.pc = s.pc + 2#16 ∧ OnlyRegs [x, 15] s t ∧
    (x ≠ 15 → (t.readV x).toNat = 2 * (s.readV x).toNat % 256 ∧ (t.readV 15).toNat = (s.readV x).toNat / 128) ∧
    (x = 15 → t.readV 15 = if 128 ≤ (s.readV 15).toNat then 0x02#8 else 0x00#8)

/-- The identities of spec/42_load_alu.md R134 on the functions the meanings use. -/
def Obligations.ArithmeticIdentities : Prop :=
  ∀ a b : Byte,
    subResult (addResult a b) b = a ∧
    shlResult a = addResult a a ∧ shlFlag a = addFlag a a ∧
    (shlResult (shrResult a)).toNat = a.toNat - a.toNat % 2 ∧
    (subFlag a b = 0x01#8 ↔ b.toNat ≤ a.toNat) ∧ (addFlag a b = 0x01#8 ↔ 255 < a.toNat + b.toNat)

/-- spec/42_load_alu.md R134: SUB Vx, Vy and SUBN Vy, Vx give the same result and the same flag. -/
def Obligations.SubtractAndReversedAgree : Prop :=
  ∀ (x y : Reg) (s : State), x ≠ 15 → y ≠ 15 → ∃ t u, exec (.sub x y) s = .next t ∧ exec (.subn y x) s = .next u ∧
    t.readV x = u.readV y ∧ t.readV 15 = u.readV 15

/-- spec/42_load_alu.md R132; no other instruction writes `I`. -/
def Obligations.LoadIndexZeroExtends : Prop :=
  (∀ ins : Word, ins &&& 0xF000#16 = 0xA000#16 → decodeWord ins = .instr (.ldI (fieldNNN ins))) ∧
  (∀ (i : Instr) (s t : State), exec i s = .next t → t.I ≠ s.I → i.mnemonic = .LD_I) ∧
  ∀ (nnn : Imm12) (s : State), ∃ t, exec (.ldI nnn) s = .next t ∧ t.I.toNat = nnn.toNat ∧ t.pc = s.pc + 2#16 ∧
    Untouched s t ∧ (∀ k : Reg, t.readV k = s.readV k) ∧ t.stack = s.stack ∧ t.sp = s.sp ∧ t.disp = s.disp ∧
    t.rndDraws = s.rndDraws

/-- spec/42_load_alu.md R133: in `exec` with `r` the free byte of the state, drawn by a counter that is the model's own (log entry 1);
in the host's Step with the byte `r` the host supplies; the last part holds of every byte `r` whatever. -/
def Obligations.RandomByteIsMasked : Prop :=
  (∀ (x : Reg) (nn : Byte) (s : State), ∃ t, exec (.rnd x nn) s = .next t ∧
    t.readV x = s.randomByte &&& nn ∧ t.pc = s.pc + 2#16 ∧ t.rndDraws = s.rndDraws + 1 ∧
    Untouched s t ∧ (∀ k : Reg, k ≠ x → t.readV k = s.readV k) ∧ t.I = s.I ∧ t.stack = s.stack ∧ t.sp = s.sp ∧
    t.disp = s.disp) ∧
  (∀ (r : Byte) (x : Reg) (nn : Byte) (s : State) (ins : Word),
    s.halted = false → s.fetch = some ins → decodeWord ins = .instr (.rnd x nn) →
    HostOp.apply (.step r) s = .next (rndWith r x nn s, .step .ok) ∧
    (rndWith r x nn s).readV x = r &&& nn ∧ (rndWith r x nn s).pc = s.pc + 2#16 ∧ OnlyRegs [x] s (rndWith r x nn s)) ∧
  ∀ (r : Byte) (x : Reg) (nn : Byte) (s : State),
    (∀ k < 8, ((rndWith r x nn s).readV x).getLsbD k = (r.getLsbD k && nn.getLsbD k)) ∧
    (nn = 0x00#8 → (rndWith r x nn s).readV x = 0x00#8) ∧ (nn = 0xFF#8 → (rndWith r x nn s).readV x = r)

/-! ## Display -/

/-- spec/43_display.md R151; its neighbours are illegal. -/
def Obligations.ClearTurnsEveryPixelOff : Prop :=
  decodeWord 0x00E0#16 = .instr .cls ∧
  (∀ ins : Word, 0x00E1 ≤ ins.toNat → ins.toNat ≤ 0x00ED → decodeWord ins = .unsupported ins) ∧
  ∀ s : State, ∃ t, exec .cls s = .next t ∧ (∀ (cx : Fin 64) (cy : Fin 32), pixelAt t.disp cx cy = false) ∧
    t.pc = s.pc + 2#16 ∧ OnlyDisplayAndRegs [] s t

/-- spec/43_display.md R152: a DRW whose sprite lies in memory flips exactly the pixels its 1 bits land on, wrapping on each axis, and
VF tells whether one of them was set. Coordinates from VF (decision D10) and `n = 0` (decision D18) are the spec's own
choices (log entries 5 and 11). -/
def Obligations.DrawFlipsExactlyTheCoveredPixels : Prop :=
  ∀ (x y : Reg) (n : Fin 16) (s : State), (n.val = 0 ∨ s.I.toNat + n.val ≤ 4096) →
    ∃ t, exec (.drw x y n) s = .next t ∧ t.pc = s.pc + 2#16 ∧ OnlyDisplayAndRegs [15] s t ∧
      (∀ (cx : Fin 64) (cy : Fin 32),
        pixelAt t.disp cx cy ≠ pixelAt s.disp cx cy ↔ SpriteCovers s x y n cx cy) ∧
      ((t.readV 15 = 0x01#8 ∧ ∃ cx cy, SpriteCovers s x y n cx cy ∧ pixelAt s.disp cx cy = true) ∨
       (t.readV 15 = 0x00#8 ∧ ∀ cx cy, SpriteCovers s x y n cx cy → pixelAt s.disp cx cy = false))

/-- spec/43_display.md R152, spec/60_exceptions.md R164(b): a sprite that extends past address 4095. The record is the spec's own decisions
D6 to D8 (log entry 3). -/
def Obligations.DrawPastMemoryTakesMemOob : Prop :=
  ∀ (x y : Reg) (n : Fin 16) (s : State), 0 < n.val → 4096 < s.I.toNat + n.val →
    exec (.drw x y n) s =
      .next (Faulted s 4#3 (BitVec.ofNat 16 (0xD000 + x.val * 256 + y.val * 16 + n.val)) true)

/-- spec/43_display.md R153(a): drawing twice restores the display, and the second collision bit tells whether the first draw turned a
pixel on. -/
def Obligations.DrawTwiceRestoresTheDisplay : Prop :=
  ∀ (x y : Reg) (n : Fin 16) (s : State), x ≠ 15 → y ≠ 15 → (n.val = 0 ∨ s.I.toNat + n.val ≤ 4096) →
    ∃ t u, exec (.drw x y n) s = .next t ∧ exec (.drw x y n) t = .next u ∧ u.disp = s.disp ∧
      (u.readV 15 = 0x01#8 ↔ ∃ cx cy, SpriteCovers s x y n cx cy ∧ pixelAt s.disp cx cy = false)

/-! ## Reset, Load, Tick, keys and the host's reads -/

/-- spec/70_reset_and_hazards.md R190 and R191, whatever the state before. `sp` and FSR are elements the spec itself adds (decisions D5,
D7); `rndDraws` is not in it. -/
def Obligations.ResetGivesTheListedState : Prop :=
  ∀ (op : HostOp) (s : State), op = .reset ∨ op = .powerOn → ∃ t, op.apply s = .next (t, .none) ∧
    t.pc = 0x0200#16 ∧ t.I = 0x0000#16 ∧ (∀ k : Reg, t.readV k = 0x00#8) ∧ (∀ k : Fin 48, t.stack[k] = 0x0000#16) ∧
    t.sp = 0 ∧ (∀ (cx : Fin 64) (cy : Fin 32), pixelAt t.disp cx cy = false) ∧ t.DT = 0x00#8 ∧ t.ST = 0x00#8 ∧
    (∀ k : Fin 16, t.key[k] = false) ∧ t.FSR = Fsr.clear ∧
    (∀ a : Fin 80, t.mem.read a.val = Config.fontRom a) ∧ (∀ a, 80 ≤ a → t.mem.read a = 0x00#8)

/-- spec/70_reset_and_hazards.md R193, R194 on canonical memory (an invariant: EveryHostOperationKeepsTheInvariant). The capacity check
and the use outside the boot order are the spec's own decision D16 (log entry 9). -/
def Obligations.LoadCopiesAllOrNothing : Prop :=
  ∀ (bytes : List Byte) (s : State), s.mem.wf = true →
    (bytes.length ≤ 3584 → ∃ t, HostOp.apply (.load bytes) s = .next (t, .load .ok) ∧ t = { s with mem := t.mem } ∧
      (∀ (k : Nat) (h : k < bytes.length), t.mem.read (0x200 + k) = bytes[k]) ∧
      ∀ a, a < 0x200 ∨ 0x200 + bytes.length ≤ a → t.mem.read a = s.mem.read a) ∧
    (3584 < bytes.length → HostOp.apply (.load bytes) s = .next (s, .load .loadCapacity))

/-- spec/60_exceptions.md R172. -/
def Obligations.TickCountsBothTimersDown : Prop :=
  (∀ s : State, (tick s).1.DT.toNat = s.DT.toNat - 1 ∧ (tick s).1.ST.toNat = s.ST.toNat - 1 ∧
    (tick s).1 = { s with DT := (tick s).1.DT, ST := (tick s).1.ST } ∧
    ((tick s).2 = true ↔ s.ST = 0x01#8) ∧ HostOp.apply .tick s = .next ((tick s).1, .tick (tick s).2)) ∧
  ∀ (v : Nat) (s : State), ((fun u => (tick u).1)^[v] s).DT.toNat = s.DT.toNat - v ∧
    ((fun u => (tick u).1)^[v] s).ST.toNat = s.ST.toNat - v

/-- spec/60_exceptions.md R173 and R174. -/
def Obligations.SoundEdgeIsOnePulse : Prop :=
  ∀ s : State,
    ((tick s).2 = true ↔ s.ST = 0x01#8) ∧
    ((tick s).2 = true ↔ readSoundActive s = true ∧ readSoundActive (tick s).1 = false) ∧
    ((tick s).2 = true → (tick (tick s).1).2 = false) ∧
    (readSoundActive s = true ↔ s.ST.toNat ≠ 0) ∧
    HostOp.apply .readSoundActive s = .next (s, .soundActive (readSoundActive s))

/-- spec/60_exceptions.md R175. -/
def Obligations.ReadDisplayIsRowMajor : Prop :=
  ∀ s : State, ∃ pixels : Vector Bool 2048, HostOp.apply .readDisplay s = .next (s, .display pixels) ∧
    ∀ (cx : Fin 64) (cy : Fin 32), pixels[cy.val * 64 + cx.val] = pixelAt s.disp cx cy

/-- spec/60_exceptions.md R176; the engine itself never writes a key. -/
def Obligations.KeySetWritesOneFlag : Prop :=
  (∀ (k : Fin 16) (b : Bool) (s : State), ∃ t, HostOp.apply (.keySet k b) s = .next (t, .none) ∧
    t = { s with key := t.key } ∧ t.key[k] = b ∧ ∀ j : Fin 16, j ≠ k → t.key[j] = s.key[j]) ∧
  ∀ s t : State, step s = .next t → t.key = s.key

/-- spec/60_exceptions.md R167 and R168: Reset and Initialize leave the halted state, from any state; on a halted engine every other
operation keeps FSR and all but memory (Load alone), timers (Tick alone) and keys (KeySet alone). The halt is the spec's own
decision D9 (log entry 4). -/
def Obligations.OnlyResetLeavesTheHalt : Prop :=
  ∀ (op : HostOp) (s : State), s.halted = true → ∃ t r, op.apply s = .next (t, r) ∧
    (op = .reset ∨ op = .powerOn → t.halted = false) ∧
    (op ≠ .reset → op ≠ .powerOn →
      t.halted = true ∧ t = { s with mem := t.mem, DT := t.DT, ST := t.ST, key := t.key } ∧
      (t.mem ≠ s.mem → ∃ bytes, op = .load bytes) ∧
      (t.DT ≠ s.DT ∨ t.ST ≠ s.ST → op = .tick) ∧
      (t.key ≠ s.key → ∃ k b, op = .keySet k b))

/-- spec/60_exceptions.md R177: along any sequence of operations from reset both timers stay 0 and no Tick returns an edge. -/
def Obligations.TimersStayZeroFromReset : Prop :=
  ∀ (ops : List HostOp) (t : State) (replies : List Reply), HostOp.run ops State.reset = .next (t, replies) →
    t.DT = 0x00#8 ∧ t.ST = 0x00#8 ∧ Reply.tick true ∉ replies ∧ Reply.soundActive true ∉ replies

/-- spec/70_reset_and_hazards.md R196: after Reset and Load, in whatever state before, the next fetch reads the first two bytes of the
program. -/
def Obligations.BootFetchesTheFirstProgramWord : Prop :=
  ∀ (hi lo : Byte) (rest : List Byte) (s : State), rest.length ≤ 3582 → ∃ t,
    HostOp.run [.reset, .load (hi :: lo :: rest)] s = .next (t, [.none, .load .ok]) ∧
    t.pc = 0x0200#16 ∧ t.halted = false ∧ t.fetch = some (hi ++ lo)

/-- spec/70_reset_and_hazards.md R196: with no Load, 1792 NOPs and then a fetch past memory. The record of that fault is the spec's own
decisions D6 to D8 (log entry 3). -/
def Obligations.ZeroedMemoryRunsAsNopsToItsEnd : Prop :=
  (∀ k ≤ 1792, Host.Core.run core k State.reset = .next { State.reset with pc := BitVec.ofNat 16 (0x200 + 2 * k) }) ∧
  Host.Core.run core 1793 State.reset = .next (Faulted { State.reset with pc := 0x1000#16 } 4#3 0x0000#16 false)

/-! ## The random byte of a Step -/

/-- spec/40_step_cycle.md R90: the host's Step on the byte that `step` would draw does what `step` does, but that it leaves the
model's own counter (log entry 1); and only RND reads the byte. -/
def Obligations.OnlyRndReadsTheByteOfTheStep : Prop :=
  (∀ s t : State, step s = .next t →
    HostOp.apply (.step s.randomByte) s = .next (t.setRndDraws s.rndDraws, .step (stepReport s t))) ∧
  ∀ (s : State) (r r' : Byte), (∀ ins x nn, s.fetch = some ins → decodeWord ins ≠ .instr (.rnd x nn)) →
    HostOp.apply (.step r) s = HostOp.apply (.step r') s

/-- spec/10_state.md R20 and R33(b): to the operations of the host the model's own counter `rndDraws` (log entry 1) is no part of the
machine. No sequence of them, Reset and Initialize included, changes it, and none depends on it; each is the operation on the
machine state alone, the tuple of R20. -/
def Obligations.HostOperationsIgnoreTheRandomCounter : Prop :=
  (∀ (ops : List HostOp) (s t : State) (replies : List Reply) (n : Nat), HostOp.run ops s = .next (t, replies) →
    t.rndDraws = s.rndDraws ∧ HostOp.run ops (s.setRndDraws n) = .next (t.setRndDraws n, replies)) ∧
  ∀ (op : HostOp) (s : State), ∃ (m : MachineState) (r : Reply),
    MachineState.apply op s.toMachineState = .next (m, r) ∧ op.apply s = .next ({ m with rndDraws := s.rndDraws }, r)
end

