-- ==== Sys2Proof/Laws/Decode.lean ====
section
/-! SUPPORT. Fields of encoded words, words rebuilt from their fields, masks by field, well-formedness. -/

namespace Sys2Proof

/-- The operand types carry the ranges of spec/30_encoding.md R72. -/
theorem Instr.wellFormed_eq_true (i : Instr) : i.wellFormed = true := by
  cases i <;> simp [Instr.wellFormed] <;> omega

/-- The capacity of spec/70_reset_and_hazards.md R194. -/
theorem Program.wellFormed_iff (bytes : List Byte) : Program.wellFormed bytes = true ↔ bytes.length ≤ 3584 := by
  simp [Program.wellFormed]

/-! ## The nibbles of four appended nibbles -/

theorem nibble3_append (a b c d : BitVec 4) : ((a ++ b) ++ (c ++ d)).extractLsb' 12 4 = a := by
  apply BitVec.eq_of_getLsbD_eq
  intro i hi
  simp only [BitVec.getLsbD_extractLsb', BitVec.getLsbD_append, hi, decide_true, Bool.true_and]
  grind

theorem nibble2_append (a b c d : BitVec 4) : ((a ++ b) ++ (c ++ d)).extractLsb' 8 4 = b := by
  apply BitVec.eq_of_getLsbD_eq
  intro i hi
  simp only [BitVec.getLsbD_extractLsb', BitVec.getLsbD_append, hi, decide_true, Bool.true_and]
  grind

theorem nibble1_append (a b c d : BitVec 4) : ((a ++ b) ++ (c ++ d)).extractLsb' 4 4 = c := by
  apply BitVec.eq_of_getLsbD_eq
  intro i hi
  simp only [BitVec.getLsbD_extractLsb', BitVec.getLsbD_append, hi, decide_true, Bool.true_and]
  grind

theorem nibble0_append (a b c d : BitVec 4) : ((a ++ b) ++ (c ++ d)).extractLsb' 0 4 = d := by
  apply BitVec.eq_of_getLsbD_eq
  intro i hi
  simp only [BitVec.getLsbD_extractLsb', BitVec.getLsbD_append, hi, decide_true, Bool.true_and]
  grind

/-- A word is its four nibbles. -/
theorem word_eq_append (w : Word) :
    w = (w.extractLsb' 12 4 ++ w.extractLsb' 8 4) ++ (w.extractLsb' 4 4 ++ w.extractLsb' 0 4) := by
  apply BitVec.eq_of_getLsbD_eq
  intro i hi
  simp only [BitVec.getLsbD_extractLsb', BitVec.getLsbD_append]
  grind

/-! ## Fields of the encodings -/

theorem fieldOp_encodeXYN (op : BitVec 4) (x y : Reg) (n : Fin 16) : fieldOp (encodeXYN op x y n) = op.toFin := by
  rw [fieldOp, encodeXYN, nibble3_append]

theorem fieldX_encodeXYN (op : BitVec 4) (x y : Reg) (n : Fin 16) : fieldX (encodeXYN op x y n) = x := by
  rw [fieldX, encodeXYN, nibble2_append]

theorem fieldY_encodeXYN (op : BitVec 4) (x y : Reg) (n : Fin 16) : fieldY (encodeXYN op x y n) = y := by
  rw [fieldY, encodeXYN, nibble1_append]

theorem fieldN_encodeXYN (op : BitVec 4) (x y : Reg) (n : Fin 16) : fieldN (encodeXYN op x y n) = n := by
  rw [fieldN, encodeXYN, nibble0_append]

theorem fieldOp_encodeXNN (op : BitVec 4) (x : Reg) (nn : Byte) : fieldOp (encodeXNN op x nn) = op.toFin := by
  rw [fieldOp, encodeXNN]
  congr 1
  apply BitVec.eq_of_getLsbD_eq
  intro i hi
  simp only [BitVec.getLsbD_extractLsb', BitVec.getLsbD_append, hi, decide_true, Bool.true_and]
  grind

theorem fieldX_encodeXNN (op : BitVec 4) (x : Reg) (nn : Byte) : fieldX (encodeXNN op x nn) = x := by
  have h : ((op ++ BitVec.ofFin (w := 4) x) ++ nn).extractLsb' 8 4 = BitVec.ofFin (w := 4) x := by
    apply BitVec.eq_of_getLsbD_eq
    intro i hi
    simp only [BitVec.getLsbD_extractLsb', BitVec.getLsbD_append, hi, decide_true, Bool.true_and]
    grind
  rw [fieldX, encodeXNN, h]

theorem fieldNN_encodeXNN (op : BitVec 4) (x : Reg) (nn : Byte) : fieldNN (encodeXNN op x nn) = nn := by
  rw [fieldNN, encodeXNN]
  apply BitVec.eq_of_getLsbD_eq
  intro i hi
  simp only [BitVec.getLsbD_extractLsb', BitVec.getLsbD_append, hi, decide_true, Bool.true_and]
  grind

theorem fieldOp_encodeNNN (op : BitVec 4) (nnn : Imm12) : fieldOp (encodeNNN op nnn) = op.toFin := by
  rw [fieldOp, encodeNNN]
  congr 1
  apply BitVec.eq_of_getLsbD_eq
  intro i hi
  simp only [BitVec.getLsbD_extractLsb', BitVec.getLsbD_append, hi, decide_true, Bool.true_and]
  grind

theorem fieldNNN_encodeNNN (op : BitVec 4) (nnn : Imm12) : fieldNNN (encodeNNN op nnn) = nnn := by
  rw [fieldNNN, encodeNNN]
  apply BitVec.eq_of_getLsbD_eq
  intro i hi
  simp only [BitVec.getLsbD_extractLsb', BitVec.getLsbD_append, hi, decide_true, Bool.true_and]
  grind

/-! ## Masks by field -/

/-- Equal words have equal nibbles, and conversely. -/
theorem append4_inj (a b c d a' b' c' d' : BitVec 4) :
    (a ++ b) ++ (c ++ d) = (a' ++ b') ++ (c' ++ d') ↔ a = a' ∧ b = b' ∧ c = c' ∧ d = d' := by
  constructor
  · intro h
    refine ⟨?_, ?_, ?_, ?_⟩
    · rw [← nibble3_append a b c d, h, nibble3_append]
    · rw [← nibble2_append a b c d, h, nibble2_append]
    · rw [← nibble1_append a b c d, h, nibble1_append]
    · rw [← nibble0_append a b c d, h, nibble0_append]
  · rintro ⟨rfl, rfl, rfl, rfl⟩
    rfl

theorem and_append4 (a b c d a' b' c' d' : BitVec 4) :
    ((a ++ b) ++ (c ++ d)) &&& ((a' ++ b') ++ (c' ++ d')) = ((a &&& a') ++ (b &&& b')) ++ ((c &&& c') ++ (d &&& d')) := by
  simp only [BitVec.and_append]

/-- A row that masks the family nibble selects by `op`. -/
theorem mask_F000_iff (w : Word) (op : BitVec 4) :
    w &&& 0xF000#16 = (op ++ 0#4) ++ (0#4 ++ 0#4) ↔ fieldOp w = op.toFin := by
  conv_lhs => rw [word_eq_append w, show (0xF000#16 : Word) = (0xF#4 ++ 0#4) ++ (0#4 ++ 0#4) from rfl, and_append4, append4_inj]
  have h : ∀ a : BitVec 4, a &&& 0xF#4 = a := by decide
  simp only [h, BitVec.and_zero, and_true]
  exact ⟨fun e => by rw [fieldOp, e], fun e => BitVec.eq_of_toFin_eq e⟩

/-- A row that masks the family and the low nibble selects by `op` and `n`. -/
theorem mask_F00F_iff (w : Word) (op n : BitVec 4) :
    w &&& 0xF00F#16 = (op ++ 0#4) ++ (0#4 ++ n) ↔ fieldOp w = op.toFin ∧ fieldN w = n.toFin := by
  conv_lhs => rw [word_eq_append w, show (0xF00F#16 : Word) = (0xF#4 ++ 0#4) ++ (0#4 ++ 0xF#4) from rfl, and_append4, append4_inj]
  have h : ∀ a : BitVec 4, a &&& 0xF#4 = a := by decide
  simp only [h, BitVec.and_zero, true_and]
  exact ⟨fun e => by rw [fieldOp, fieldN, e.1, e.2]; exact ⟨rfl, rfl⟩,
    fun e => ⟨BitVec.eq_of_toFin_eq e.1, BitVec.eq_of_toFin_eq e.2⟩⟩

/-- A row without don't-care bits selects one word. -/
theorem mask_FFFF_iff (w v : Word) : w &&& 0xFFFF#16 = v ↔ w = v := by
  rw [show (0xFFFF#16 : Word) = BitVec.allOnes 16 from rfl, BitVec.and_allOnes]

/-! ## Bytes -/

/-- A word is its two bytes, high byte first. -/
theorem wordOfBytes_bytes (w : Word) : wordOfBytes (highByte w) (lowByte w) = w := by
  rw [wordOfBytes, highByte, lowByte]
  apply BitVec.eq_of_getLsbD_eq
  intro i hi
  simp only [BitVec.getLsbD_extractLsb', BitVec.getLsbD_append]
  grind

/-- Decoding never needs more than the two bytes it has. -/
theorem decodeWord_ne_truncated (w : Word) : decodeWord w ≠ .truncated := by
  unfold decodeWord decodeFamily0 decodeFamily8
  split <;> (try split) <;> (try split) <;> (try split) <;> simp

end Sys2Proof
end

