-- ==== Sys2Proof/Laws/Flags.lean ====
section
/-! SUPPORT. Arithmetic results, flags and operand forms as exact integers. -/

namespace Sys2Proof.Machine

theorem flagByte_toNat (b : Bool) : (flagByte b).toNat = if b then 1 else 0 := by cases b <;> rfl

theorem toNat_zext16 (nnn : Imm12) : (zext16 nnn).toNat = nnn.toNat := by simp [zext16]; omega

/-- The 16-bit sum of Bnnn never overflows. -/
theorem toNat_jumpV0Target (v0 : Byte) (nnn : Imm12) : (jumpV0Target v0 nnn).toNat = v0.toNat + nnn.toNat := by
  simp [jumpV0Target, zextByte, zext16]; omega

theorem toNat_sum9 (a b : Byte) : (sum9 a b).toNat = a.toNat + b.toNat := by simp [sum9]; omega

theorem toNat_addResult (a b : Byte) : (addResult a b).toNat = (a.toNat + b.toNat) % 256 := by
  simp [addResult, BitVec.extractLsb'_toNat, toNat_sum9]

theorem addFlag_eq (a b : Byte) : addFlag a b = if 255 < a.toNat + b.toNat then 0x01#8 else 0x00#8 := by
  have h : (sum9 a b).getLsbD 8 = decide (255 < a.toNat + b.toNat) := by
    rw [BitVec.getLsbD, toNat_sum9, Nat.testBit_eq_decide_div_mod_eq]
    have ha := a.isLt
    have hb := b.isLt
    congr 1
    simp only [eq_iff_iff]
    omega
  rw [addFlag, h, flagByte]
  simp only [decide_eq_true_eq]

theorem toNat_subResult (a b : Byte) : (subResult a b).toNat = (a.toNat + 256 - b.toNat) % 256 := by
  simp [subResult, BitVec.toNat_sub]; omega

theorem subFlag_eq (a b : Byte) : subFlag a b = if a.toNat < b.toNat then 0x00#8 else 0x01#8 := by
  by_cases h : a.toNat < b.toNat
  · have : ¬ b.toNat ≤ a.toNat := by omega
    simp [subFlag, flagByte, h, this]
  · have : b.toNat ≤ a.toNat := by omega
    simp [subFlag, flagByte, h, this]

theorem toNat_shrResult (a : Byte) : (shrResult a).toNat = a.toNat / 2 := by
  simp [shrResult, Nat.shiftRight_eq_div_pow]

theorem toNat_shrFlag (a : Byte) : (shrFlag a).toNat = a.toNat % 2 := by
  rw [shrFlag, flagByte_toNat, BitVec.getLsbD, Nat.testBit_eq_decide_div_mod_eq]
  simp only [decide_eq_true_eq]
  split <;> omega

theorem toNat_shlResult (a : Byte) : (shlResult a).toNat = 2 * a.toNat % 256 := by
  simp [shlResult, Nat.shiftLeft_eq, Nat.mul_comm]

theorem toNat_shlFlag (a : Byte) : (shlFlag a).toNat = a.toNat / 128 := by
  have := a.isLt
  rw [shlFlag, flagByte_toNat, BitVec.getLsbD, Nat.testBit_eq_decide_div_mod_eq]
  simp only [decide_eq_true_eq]
  split <;> omega

end Sys2Proof.Machine
end

