-- ==== Sys2Proof/Laws/Framebuffer.lean ====
section
/-! SUPPORT. The framebuffer: one pixel after a write, displays equal pixel by pixel, and everything drawing a sprite can do. -/

namespace Sys2Proof.Machine

/-- A write changes its pixel and no other. -/
theorem pixelAt_setPixel (d : Display) (cx cx' : Fin 64) (cy cy' : Fin 32) (b : Bool) :
    pixelAt (setPixel d cx cy b) cx' cy' = if cx' = cx ∧ cy' = cy then b else pixelAt d cx' cy' := by
  simp only [pixelAt, setPixel, Fin.getElem_fin, Vector.getElem_set, Fin.ext_iff]
  by_cases hy : cy.val = cy'.val
  · by_cases hx : cx.val = cx'.val
    · simp [hx, hy]
    · have : ¬ cx'.val = cx.val := fun e => hx e.symm
      simp [hy, hx, this]
  · have : ¬ cy'.val = cy.val := fun e => hy e.symm
    simp [hy, this]

theorem pixelAt_clearDisplay (cx : Fin 64) (cy : Fin 32) : pixelAt clearDisplay cx cy = false := by
  simp [pixelAt, clearDisplay]

/-- Two displays that agree on every pixel are equal. -/
theorem display_ext {d e : Display} (h : ∀ cx cy, pixelAt d cx cy = pixelAt e cx cy) : d = e := by
  apply Vector.ext
  intro y hy
  apply Vector.ext
  intro x hx
  exact h ⟨x, hx⟩ ⟨y, hy⟩

/-- A 1 bit of the row lands on the pixel. -/
def RowCovers (px py : Byte) (row : Nat) (b : Byte) (cols : List Nat) (cx : Fin 64) (cy : Fin 32) : Prop :=
  ∃ col ∈ cols, spriteBit b col = true ∧ pixelColumn px col = cx ∧ pixelRow py row = cy

/-- A 1 bit of the sprite, whose first byte is at row offset `row`, lands on the pixel. -/
def RowsCover (px py : Byte) (row : Nat) (sprite : List Byte) (cx : Fin 64) (cy : Fin 32) : Prop :=
  ∃ k : Nat, ∃ b : Byte, sprite[k]? = some b ∧ RowCovers px py (row + k) b [0, 1, 2, 3, 4, 5, 6, 7] cx cy

theorem pixelColumn_inj (px : Byte) {c c' : Nat} (h : c < 8) (h' : c' < 8) (e : pixelColumn px c = pixelColumn px c') :
    c = c' := by
  have := Fin.ext_iff.1 e
  simp only [pixelColumn] at this
  omega

theorem pixelRow_inj (py : Byte) {r k k' : Nat} (h : k < 32) (h' : k' < 32)
    (e : pixelRow py (r + k) = pixelRow py (r + k')) : k = k' := by
  have := Fin.ext_iff.1 e
  simp only [pixelRow] at this
  omega

/-- One toggle flips its pixel alone and notes whether it was set. -/
theorem togglePixel_spec (cx cx' : Fin 64) (cy cy' : Fin 32) (dh : Display × Bool) :
    (pixelAt (togglePixel cx cy dh).1 cx' cy' ≠ pixelAt dh.1 cx' cy' ↔ cx = cx' ∧ cy = cy') ∧
    ((togglePixel cx cy dh).2 = true ↔ dh.2 = true ∨ pixelAt dh.1 cx cy = true) := by
  refine ⟨?_, by simp [togglePixel]⟩
  simp only [togglePixel, pixelAt_setPixel]
  by_cases h : cx' = cx ∧ cy' = cy
  · obtain ⟨rfl, rfl⟩ := h
    simp
  · rw [if_neg h]
    simp only [ne_eq, not_true_eq_false, false_iff]
    exact fun e => h ⟨e.1.symm, e.2.symm⟩

/-- Everything drawing one row can do, on distinct column offsets below 8. -/
theorem drawColumns_spec (px py : Byte) (row : Nat) (b : Byte) (cols : List Nat) (hnd : cols.Nodup) (hlt : ∀ c ∈ cols, c < 8)
    (dh : Display × Bool) :
    (∀ cx cy, pixelAt (drawColumns px py row b cols dh).1 cx cy ≠ pixelAt dh.1 cx cy ↔ RowCovers px py row b cols cx cy) ∧
    ((drawColumns px py row b cols dh).2 = true ↔
      dh.2 = true ∨ ∃ cx cy, RowCovers px py row b cols cx cy ∧ pixelAt dh.1 cx cy = true) := by
  induction cols generalizing dh with
  | nil => simp [drawColumns, RowCovers]
  | cons c cs ih =>
    obtain ⟨hc, hnd'⟩ := List.nodup_cons.1 hnd
    have hcov : ∀ cx cy, RowCovers px py row b (c :: cs) cx cy ↔
        (spriteBit b c = true ∧ pixelColumn px c = cx ∧ pixelRow py row = cy) ∨ RowCovers px py row b cs cx cy := by
      intro cx cy
      simp [RowCovers]
    have hdisj : ∀ cx cy, pixelColumn px c = cx → ¬ RowCovers px py row b cs cx cy := by
      rintro cx cy rfl ⟨c', hc', _, e, _⟩
      have := pixelColumn_inj px (hlt c' (by simp [hc'])) (hlt c (by simp)) e
      exact hc (this ▸ hc')
    rw [drawColumns]
    by_cases hb : spriteBit b c = true
    · simp only [hb, if_true]
      obtain ⟨ih1, ih2⟩ := ih hnd' (fun c' h => hlt c' (by simp [h])) (togglePixel (pixelColumn px c) (pixelRow py row) dh)
      constructor
      · intro cx cy
        have h1 := ih1 cx cy
        have h2 := (togglePixel_spec (pixelColumn px c) cx (pixelRow py row) cy dh).1
        have h3 := hdisj cx cy
        rw [hcov]
        simp only [hb, true_and]
        revert h1 h2
        generalize pixelAt (drawColumns px py row b cs _).1 cx cy = p
        generalize pixelAt (togglePixel _ _ dh).1 cx cy = q
        generalize pixelAt dh.1 cx cy = r
        intro h1 h2
        by_cases e : pixelColumn px c = cx ∧ pixelRow py row = cy
        · have n := h3 e.1
          have hq : q ≠ r := h2.2 e
          have hp : ¬ p ≠ q := fun k => n (h1.1 k)
          simp only [e, and_self, true_or, iff_true]
          rw [not_not.1 hp]
          exact hq
        · have hq : ¬ q ≠ r := fun k => e (h2.1 k)
          have hq' : q = r := not_not.1 hq
          simp only [e, false_or, ← h1, hq']
      · rw [ih2, (togglePixel_spec (pixelColumn px c) (pixelColumn px c) (pixelRow py row) (pixelRow py row) dh).2]
        constructor
        · rintro ((h | h) | ⟨cx, cy, h, h'⟩)
          · exact .inl h
          · exact .inr ⟨_, _, (hcov _ _).2 (.inl ⟨hb, rfl, rfl⟩), h⟩
          · have h2 := (togglePixel_spec (pixelColumn px c) cx (pixelRow py row) cy dh).1
            have ne : ¬ (pixelColumn px c = cx ∧ pixelRow py row = cy) := fun e => hdisj cx cy e.1 h
            have : pixelAt (togglePixel (pixelColumn px c) (pixelRow py row) dh).1 cx cy = pixelAt dh.1 cx cy :=
              not_not.1 fun k => ne (h2.1 k)
            exact .inr ⟨cx, cy, (hcov _ _).2 (.inr h), this ▸ h'⟩
        · rintro (h | ⟨cx, cy, h, h'⟩)
          · exact .inl (.inl h)
          · rcases (hcov cx cy).1 h with ⟨_, rfl, rfl⟩ | h
            · exact .inl (.inr h')
            · have h2 := (togglePixel_spec (pixelColumn px c) cx (pixelRow py row) cy dh).1
              have ne : ¬ (pixelColumn px c = cx ∧ pixelRow py row = cy) := fun e => hdisj cx cy e.1 h
              have : pixelAt (togglePixel (pixelColumn px c) (pixelRow py row) dh).1 cx cy = pixelAt dh.1 cx cy :=
                not_not.1 fun k => ne (h2.1 k)
              exact .inr ⟨cx, cy, h, this.symm ▸ h'⟩
    · obtain ⟨ih1, ih2⟩ := ih hnd' (fun c' h => hlt c' (by simp [h])) dh
      have hcov' : ∀ cx cy, RowCovers px py row b (c :: cs) cx cy ↔ RowCovers px py row b cs cx cy := by
        intro cx cy
        rw [hcov]
        simp [hb]
      simp only [hb, Bool.false_eq_true, if_false, hcov']
      exact ⟨ih1, ih2⟩

/-- Everything drawing at most 32 rows can do: each covered pixel is flipped once. -/
theorem drawRows_spec (px py : Byte) (row : Nat) (sprite : List Byte) (hlen : sprite.length ≤ 32) (dh : Display × Bool) :
    (∀ cx cy, pixelAt (drawRows px py row sprite dh).1 cx cy ≠ pixelAt dh.1 cx cy ↔ RowsCover px py row sprite cx cy) ∧
    ((drawRows px py row sprite dh).2 = true ↔
      dh.2 = true ∨ ∃ cx cy, RowsCover px py row sprite cx cy ∧ pixelAt dh.1 cx cy = true) := by
  induction sprite generalizing row dh with
  | nil => simp [drawRows, RowsCover]
  | cons b bs ih =>
    simp only [List.length_cons] at hlen
    have hcov : ∀ cx cy, RowsCover px py row (b :: bs) cx cy ↔
        RowCovers px py row b [0, 1, 2, 3, 4, 5, 6, 7] cx cy ∨ RowsCover px py (row + 1) bs cx cy := by
      intro cx cy
      constructor
      · rintro ⟨k, b', hk, h⟩
        cases k with
        | zero => simp only [List.getElem?_cons_zero, Option.some.injEq] at hk; subst hk; exact .inl h
        | succ k => exact .inr ⟨k, b', by simpa using hk, by rwa [show row + 1 + k = row + (k + 1) by omega]⟩
      · rintro (h | ⟨k, b', hk, h⟩)
        · exact ⟨0, b, by simp, h⟩
        · exact ⟨k + 1, b', by simpa using hk, by rwa [show row + (k + 1) = row + 1 + k by omega]⟩
    have hdisj : ∀ cx cy, RowCovers px py row b [0, 1, 2, 3, 4, 5, 6, 7] cx cy → ¬ RowsCover px py (row + 1) bs cx cy := by
      rintro cx cy ⟨_, _, _, _, e⟩ ⟨k, b', hk, _, _, _, _, e'⟩
      have hk' : k < bs.length := by
        rcases Nat.lt_or_ge k bs.length with h | h
        · exact h
        · rw [List.getElem?_eq_none h] at hk
          exact absurd hk nofun
      have := pixelRow_inj py (r := row) (k := 0) (k' := k + 1) (by omega) (by omega)
        (by rw [Nat.add_zero, e, show row + (k + 1) = row + 1 + k by omega, e'])
      omega
    rw [drawRows]
    obtain ⟨c1, c2⟩ := drawColumns_spec px py row b [0, 1, 2, 3, 4, 5, 6, 7] (by decide) (by decide) dh
    obtain ⟨i1, i2⟩ := ih (row + 1) (by omega) (drawColumns px py row b [0, 1, 2, 3, 4, 5, 6, 7] dh)
    have keep : ∀ cx cy, RowsCover px py (row + 1) bs cx cy →
        pixelAt (drawColumns px py row b [0, 1, 2, 3, 4, 5, 6, 7] dh).1 cx cy = pixelAt dh.1 cx cy := by
      intro cx cy h
      exact not_not.1 fun k => hdisj cx cy ((c1 cx cy).1 k) h
    constructor
    · intro cx cy
      rw [hcov]
      by_cases h : RowsCover px py (row + 1) bs cx cy
      · have := (i1 cx cy).2 h
        rw [keep cx cy h] at this
        simp [h, this]
      · have : pixelAt (drawRows px py (row + 1) bs (drawColumns px py row b [0, 1, 2, 3, 4, 5, 6, 7] dh)).1 cx cy =
            pixelAt (drawColumns px py row b [0, 1, 2, 3, 4, 5, 6, 7] dh).1 cx cy := not_not.1 fun k => h ((i1 cx cy).1 k)
        rw [this, c1]
        simp [h]
    · rw [i2, c2]
      constructor
      · rintro ((h | ⟨cx, cy, h, h'⟩) | ⟨cx, cy, h, h'⟩)
        · exact .inl h
        · exact .inr ⟨cx, cy, (hcov _ _).2 (.inl h), h'⟩
        · exact .inr ⟨cx, cy, (hcov _ _).2 (.inr h), keep cx cy h ▸ h'⟩
      · rintro (h | ⟨cx, cy, h, h'⟩)
        · exact .inl (.inl h)
        · rcases (hcov cx cy).1 h with h | h
          · exact .inl (.inr ⟨cx, cy, h, h'⟩)
          · exact .inr ⟨cx, cy, h, (keep cx cy h).symm ▸ h'⟩

end Sys2Proof.Machine
end

