-- ==== Sys2Proof/Laws/Memory.lean ====
section
/-! SUPPORT. Memory: read after write, and that every memory operation keeps the canonical form. -/

namespace Sys2Proof.Machine

/-- The canonical form of a list with a first cell. -/
theorem Memory.wf_cons {a : Nat} {v : Byte} {m : Memory} : Memory.wf ((a, v) :: m) = true ↔
    a < 4096 ∧ v ≠ resetByte a ∧ (∀ c ∈ m, a < c.1) ∧ Memory.wf m = true := by
  simp [Memory.wf, and_assoc]

theorem Memory.wf_nil : Memory.wf [] = true := rfl

/-- The memory of the reset state is canonical. -/
theorem Memory.reset_wf : State.reset.mem.wf = true := rfl

/-- An address below every listed one reads as after reset. -/
theorem Memory.read_of_lt_all {m : Memory} {a : Nat} (h : ∀ c ∈ m, a < c.1) : Memory.read m a = resetByte a := by
  induction m with
  | nil => rfl
  | cons c m ih =>
    have hc := h c (by simp)
    rw [Memory.read, if_neg (by omega)]
    exact ih fun d hd => h d (by simp [hd])

theorem Memory.read_cons (a : Nat) (v : Byte) (m : Memory) (b : Nat) (h : ∀ c ∈ m, a < c.1) :
    Memory.read (Memory.cons a v m) b = if b = a then v else Memory.read m b := by
  unfold Memory.cons
  split
  · next e =>
    split
    · next hb => subst hb; rw [Memory.read_of_lt_all h, e]
    · rfl
  · rfl

theorem Memory.mem_insert {m : Memory} {a : Nat} {v : Byte} {c : Host.Cell} (h : c ∈ Memory.insert m a v) :
    c = (a, v) ∨ c ∈ m := by
  induction m with
  | nil =>
    simp only [Memory.insert, Memory.cons] at h
    split at h <;> simp_all
  | cons d m ih =>
    simp only [Memory.insert, Memory.cons] at h
    split at h
    · split at h
      · exact .inr h
      · simpa using h
    · split at h
      · split at h
        · exact .inr (by simp [h])
        · rcases List.mem_cons.1 h with h | h
          · exact .inl h
          · exact .inr (by simp [h])
      · rcases List.mem_cons.1 h with h | h
        · exact .inr (by simp [h])
        · rcases ih h with h | h
          · exact .inl h
          · exact .inr (by simp [h])

theorem Memory.wf_consCell {a : Nat} {v : Byte} {m : Memory} (ha : a < 4096) (h : ∀ c ∈ m, a < c.1) (hm : m.wf = true) :
    (Memory.cons a v m).wf = true := by
  unfold Memory.cons
  split
  · exact hm
  · next e => exact Memory.wf_cons.2 ⟨ha, e, h, hm⟩

/-- Read after write, at any address inside the array, on canonical memory. -/
theorem Memory.read_insert {m : Memory} (hm : m.wf = true) (a : Nat) (v : Byte) (b : Nat) :
    Memory.read (Memory.insert m a v) b = if b = a then v else Memory.read m b := by
  induction m with
  | nil => exact Memory.read_cons a v [] b (by simp)
  | cons d m ih =>
    obtain ⟨d, w⟩ := d
    obtain ⟨_, _, hall, hm'⟩ := Memory.wf_cons.1 hm
    simp only [Memory.insert]
    split
    · next hlt =>
      refine Memory.read_cons a v _ b fun c hc => ?_
      rcases List.mem_cons.1 hc with h | h
      · subst h; exact hlt
      · exact Nat.lt_trans hlt (hall c h)
    · split
      · next hne he =>
        subst he
        rw [Memory.read_cons a v m b hall]
        split
        · rfl
        · next hb => rw [Memory.read, if_neg hb]
      · next hlt hne =>
        rw [Memory.read, ih hm', Memory.read]
        by_cases hb : b = d
        · have : b ≠ a := by omega
          simp [hb]; omega
        · simp [hb]

theorem Memory.wf_insert {m : Memory} (hm : m.wf = true) {a : Nat} (ha : a < 4096) (v : Byte) :
    (Memory.insert m a v).wf = true := by
  induction m with
  | nil => exact Memory.wf_consCell ha (by simp) rfl
  | cons d m ih =>
    obtain ⟨d, w⟩ := d
    obtain ⟨hd, hw, hall, hm'⟩ := Memory.wf_cons.1 hm
    simp only [Memory.insert]
    split
    · next hlt =>
      refine Memory.wf_consCell ha (fun c hc => ?_) hm
      rcases List.mem_cons.1 hc with h | h
      · subst h; exact hlt
      · exact Nat.lt_trans hlt (hall c h)
    · split
      · next he => subst he; exact Memory.wf_consCell ha hall hm'
      · next hlt hne =>
        refine Memory.wf_cons.2 ⟨hd, hw, fun c hc => ?_, ih hm'⟩
        rcases Memory.mem_insert hc with h | h
        · subst h; show d < a; omega
        · exact hall c h

/-- Every write keeps the canonical form. -/
theorem Memory.wf_write {m : Memory} (hm : m.wf = true) (a : Nat) (v : Byte) : (Memory.write m a v).wf = true := by
  unfold Memory.write
  split
  · next h => exact Memory.wf_insert hm h v
  · exact hm

/-- Read after write. -/
theorem Memory.read_write {m : Memory} (hm : m.wf = true) {a : Nat} (ha : a < 4096) (v : Byte) (b : Nat) :
    Memory.read (Memory.write m a v) b = if b = a then v else Memory.read m b := by
  rw [Memory.write, if_pos ha, Memory.read_insert hm]

/-- Every run of consecutive writes keeps the canonical form. -/
theorem Memory.wf_writeBytes {m : Memory} (hm : m.wf = true) (a : Nat) (vs : List Byte) :
    (Memory.writeBytes m a vs).wf = true := by
  induction vs generalizing m a with
  | nil => exact hm
  | cons v vs ih => exact ih (Memory.wf_write hm a v) (a + 1)

/-- Consecutive writes leave every other address alone. -/
theorem Memory.read_writeBytes_outside {m : Memory} (hm : m.wf = true) {a : Nat} (vs : List Byte) (ha : a + vs.length ≤ 4096)
    {b : Nat} (hb : b < a ∨ a + vs.length ≤ b) : Memory.read (Memory.writeBytes m a vs) b = Memory.read m b := by
  induction vs generalizing m a with
  | nil => rfl
  | cons v vs ih =>
    simp only [List.length_cons] at ha hb
    rw [Memory.writeBytes, ih (Memory.wf_write hm a v) (by omega) (by omega), Memory.read_write hm (by omega),
      if_neg (by omega)]

/-- Consecutive writes are read back, byte by byte. -/
theorem Memory.read_writeBytes_inside {m : Memory} (hm : m.wf = true) {a : Nat} (vs : List Byte) (ha : a + vs.length ≤ 4096)
    {k : Nat} (hk : k < vs.length) : Memory.read (Memory.writeBytes m a vs) (a + k) = vs[k] := by
  induction vs generalizing m a k with
  | nil => simp at hk
  | cons v vs ih =>
    simp only [List.length_cons] at ha hk
    cases k with
    | zero =>
      rw [Memory.writeBytes, Memory.read_writeBytes_outside (Memory.wf_write hm a v) vs (by omega) (by omega),
        Memory.read_write hm (by omega)]
      simp
    | succ k =>
      rw [Memory.writeBytes, show a + (k + 1) = a + 1 + k by omega, ih (Memory.wf_write hm a v) (by omega) (by omega)]
      rfl

end Sys2Proof.Machine
end

