-- ==== Sys2Proof/Laws/State.lean ====
section
/-! SUPPORT. One lemma per field per plain update, so that no later proof unfolds a record update. -/

namespace Sys2Proof.Machine

section
variable (s : State) (v : Word)
@[simp] theorem State.setPc_pc : (s.setPc v).pc = v := rfl
@[simp] theorem State.setPc_mem : (s.setPc v).mem = s.mem := rfl
@[simp] theorem State.setPc_I : (s.setPc v).I = s.I := rfl
@[simp] theorem State.setPc_V : (s.setPc v).V = s.V := rfl
@[simp] theorem State.setPc_stack : (s.setPc v).stack = s.stack := rfl
@[simp] theorem State.setPc_sp : (s.setPc v).sp = s.sp := rfl
@[simp] theorem State.setPc_disp : (s.setPc v).disp = s.disp := rfl
@[simp] theorem State.setPc_DT : (s.setPc v).DT = s.DT := rfl
@[simp] theorem State.setPc_ST : (s.setPc v).ST = s.ST := rfl
@[simp] theorem State.setPc_key : (s.setPc v).key = s.key := rfl
@[simp] theorem State.setPc_FSR : (s.setPc v).FSR = s.FSR := rfl
@[simp] theorem State.setPc_rndDraws : (s.setPc v).rndDraws = s.rndDraws := rfl
end

section
variable (s : State) (v : Memory)
@[simp] theorem State.setMem_pc : (s.setMem v).pc = s.pc := rfl
@[simp] theorem State.setMem_mem : (s.setMem v).mem = v := rfl
@[simp] theorem State.setMem_I : (s.setMem v).I = s.I := rfl
@[simp] theorem State.setMem_V : (s.setMem v).V = s.V := rfl
@[simp] theorem State.setMem_stack : (s.setMem v).stack = s.stack := rfl
@[simp] theorem State.setMem_sp : (s.setMem v).sp = s.sp := rfl
@[simp] theorem State.setMem_disp : (s.setMem v).disp = s.disp := rfl
@[simp] theorem State.setMem_DT : (s.setMem v).DT = s.DT := rfl
@[simp] theorem State.setMem_ST : (s.setMem v).ST = s.ST := rfl
@[simp] theorem State.setMem_key : (s.setMem v).key = s.key := rfl
@[simp] theorem State.setMem_FSR : (s.setMem v).FSR = s.FSR := rfl
@[simp] theorem State.setMem_rndDraws : (s.setMem v).rndDraws = s.rndDraws := rfl
end

section
variable (s : State) (v : Word)
@[simp] theorem State.setI_pc : (s.setI v).pc = s.pc := rfl
@[simp] theorem State.setI_mem : (s.setI v).mem = s.mem := rfl
@[simp] theorem State.setI_I : (s.setI v).I = v := rfl
@[simp] theorem State.setI_V : (s.setI v).V = s.V := rfl
@[simp] theorem State.setI_stack : (s.setI v).stack = s.stack := rfl
@[simp] theorem State.setI_sp : (s.setI v).sp = s.sp := rfl
@[simp] theorem State.setI_disp : (s.setI v).disp = s.disp := rfl
@[simp] theorem State.setI_DT : (s.setI v).DT = s.DT := rfl
@[simp] theorem State.setI_ST : (s.setI v).ST = s.ST := rfl
@[simp] theorem State.setI_key : (s.setI v).key = s.key := rfl
@[simp] theorem State.setI_FSR : (s.setI v).FSR = s.FSR := rfl
@[simp] theorem State.setI_rndDraws : (s.setI v).rndDraws = s.rndDraws := rfl
end

section
variable (s : State) (v : Vector Byte 16)
@[simp] theorem State.setRegs_pc : (s.setRegs v).pc = s.pc := rfl
@[simp] theorem State.setRegs_mem : (s.setRegs v).mem = s.mem := rfl
@[simp] theorem State.setRegs_I : (s.setRegs v).I = s.I := rfl
@[simp] theorem State.setRegs_V : (s.setRegs v).V = v := rfl
@[simp] theorem State.setRegs_stack : (s.setRegs v).stack = s.stack := rfl
@[simp] theorem State.setRegs_sp : (s.setRegs v).sp = s.sp := rfl
@[simp] theorem State.setRegs_disp : (s.setRegs v).disp = s.disp := rfl
@[simp] theorem State.setRegs_DT : (s.setRegs v).DT = s.DT := rfl
@[simp] theorem State.setRegs_ST : (s.setRegs v).ST = s.ST := rfl
@[simp] theorem State.setRegs_key : (s.setRegs v).key = s.key := rfl
@[simp] theorem State.setRegs_FSR : (s.setRegs v).FSR = s.FSR := rfl
@[simp] theorem State.setRegs_rndDraws : (s.setRegs v).rndDraws = s.rndDraws := rfl
end

section
variable (s : State) (v : Vector Word 48)
@[simp] theorem State.setStack_pc : (s.setStack v).pc = s.pc := rfl
@[simp] theorem State.setStack_mem : (s.setStack v).mem = s.mem := rfl
@[simp] theorem State.setStack_I : (s.setStack v).I = s.I := rfl
@[simp] theorem State.setStack_V : (s.setStack v).V = s.V := rfl
@[simp] theorem State.setStack_stack : (s.setStack v).stack = v := rfl
@[simp] theorem State.setStack_sp : (s.setStack v).sp = s.sp := rfl
@[simp] theorem State.setStack_disp : (s.setStack v).disp = s.disp := rfl
@[simp] theorem State.setStack_DT : (s.setStack v).DT = s.DT := rfl
@[simp] theorem State.setStack_ST : (s.setStack v).ST = s.ST := rfl
@[simp] theorem State.setStack_key : (s.setStack v).key = s.key := rfl
@[simp] theorem State.setStack_FSR : (s.setStack v).FSR = s.FSR := rfl
@[simp] theorem State.setStack_rndDraws : (s.setStack v).rndDraws = s.rndDraws := rfl
end

section
variable (s : State) (v : Fin 49)
@[simp] theorem State.setSp_pc : (s.setSp v).pc = s.pc := rfl
@[simp] theorem State.setSp_mem : (s.setSp v).mem = s.mem := rfl
@[simp] theorem State.setSp_I : (s.setSp v).I = s.I := rfl
@[simp] theorem State.setSp_V : (s.setSp v).V = s.V := rfl
@[simp] theorem State.setSp_stack : (s.setSp v).stack = s.stack := rfl
@[simp] theorem State.setSp_sp : (s.setSp v).sp = v := rfl
@[simp] theorem State.setSp_disp : (s.setSp v).disp = s.disp := rfl
@[simp] theorem State.setSp_DT : (s.setSp v).DT = s.DT := rfl
@[simp] theorem State.setSp_ST : (s.setSp v).ST = s.ST := rfl
@[simp] theorem State.setSp_key : (s.setSp v).key = s.key := rfl
@[simp] theorem State.setSp_FSR : (s.setSp v).FSR = s.FSR := rfl
@[simp] theorem State.setSp_rndDraws : (s.setSp v).rndDraws = s.rndDraws := rfl
end

section
variable (s : State) (v : Display)
@[simp] theorem State.setDisp_pc : (s.setDisp v).pc = s.pc := rfl
@[simp] theorem State.setDisp_mem : (s.setDisp v).mem = s.mem := rfl
@[simp] theorem State.setDisp_I : (s.setDisp v).I = s.I := rfl
@[simp] theorem State.setDisp_V : (s.setDisp v).V = s.V := rfl
@[simp] theorem State.setDisp_stack : (s.setDisp v).stack = s.stack := rfl
@[simp] theorem State.setDisp_sp : (s.setDisp v).sp = s.sp := rfl
@[simp] theorem State.setDisp_disp : (s.setDisp v).disp = v := rfl
@[simp] theorem State.setDisp_DT : (s.setDisp v).DT = s.DT := rfl
@[simp] theorem State.setDisp_ST : (s.setDisp v).ST = s.ST := rfl
@[simp] theorem State.setDisp_key : (s.setDisp v).key = s.key := rfl
@[simp] theorem State.setDisp_FSR : (s.setDisp v).FSR = s.FSR := rfl
@[simp] theorem State.setDisp_rndDraws : (s.setDisp v).rndDraws = s.rndDraws := rfl
end

section
variable (s : State) (v : Byte)
@[simp] theorem State.setDT_pc : (s.setDT v).pc = s.pc := rfl
@[simp] theorem State.setDT_mem : (s.setDT v).mem = s.mem := rfl
@[simp] theorem State.setDT_I : (s.setDT v).I = s.I := rfl
@[simp] theorem State.setDT_V : (s.setDT v).V = s.V := rfl
@[simp] theorem State.setDT_stack : (s.setDT v).stack = s.stack := rfl
@[simp] theorem State.setDT_sp : (s.setDT v).sp = s.sp := rfl
@[simp] theorem State.setDT_disp : (s.setDT v).disp = s.disp := rfl
@[simp] theorem State.setDT_DT : (s.setDT v).DT = v := rfl
@[simp] theorem State.setDT_ST : (s.setDT v).ST = s.ST := rfl
@[simp] theorem State.setDT_key : (s.setDT v).key = s.key := rfl
@[simp] theorem State.setDT_FSR : (s.setDT v).FSR = s.FSR := rfl
@[simp] theorem State.setDT_rndDraws : (s.setDT v).rndDraws = s.rndDraws := rfl
end

section
variable (s : State) (v : Byte)
@[simp] theorem State.setST_pc : (s.setST v).pc = s.pc := rfl
@[simp] theorem State.setST_mem : (s.setST v).mem = s.mem := rfl
@[simp] theorem State.setST_I : (s.setST v).I = s.I := rfl
@[simp] theorem State.setST_V : (s.setST v).V = s.V := rfl
@[simp] theorem State.setST_stack : (s.setST v).stack = s.stack := rfl
@[simp] theorem State.setST_sp : (s.setST v).sp = s.sp := rfl
@[simp] theorem State.setST_disp : (s.setST v).disp = s.disp := rfl
@[simp] theorem State.setST_DT : (s.setST v).DT = s.DT := rfl
@[simp] theorem State.setST_ST : (s.setST v).ST = v := rfl
@[simp] theorem State.setST_key : (s.setST v).key = s.key := rfl
@[simp] theorem State.setST_FSR : (s.setST v).FSR = s.FSR := rfl
@[simp] theorem State.setST_rndDraws : (s.setST v).rndDraws = s.rndDraws := rfl
end

section
variable (s : State) (v : Vector Bool 16)
@[simp] theorem State.setKey_pc : (s.setKey v).pc = s.pc := rfl
@[simp] theorem State.setKey_mem : (s.setKey v).mem = s.mem := rfl
@[simp] theorem State.setKey_I : (s.setKey v).I = s.I := rfl
@[simp] theorem State.setKey_V : (s.setKey v).V = s.V := rfl
@[simp] theorem State.setKey_stack : (s.setKey v).stack = s.stack := rfl
@[simp] theorem State.setKey_sp : (s.setKey v).sp = s.sp := rfl
@[simp] theorem State.setKey_disp : (s.setKey v).disp = s.disp := rfl
@[simp] theorem State.setKey_DT : (s.setKey v).DT = s.DT := rfl
@[simp] theorem State.setKey_ST : (s.setKey v).ST = s.ST := rfl
@[simp] theorem State.setKey_key : (s.setKey v).key = v := rfl
@[simp] theorem State.setKey_FSR : (s.setKey v).FSR = s.FSR := rfl
@[simp] theorem State.setKey_rndDraws : (s.setKey v).rndDraws = s.rndDraws := rfl
end

section
variable (s : State) (v : Fsr)
@[simp] theorem State.setFSR_pc : (s.setFSR v).pc = s.pc := rfl
@[simp] theorem State.setFSR_mem : (s.setFSR v).mem = s.mem := rfl
@[simp] theorem State.setFSR_I : (s.setFSR v).I = s.I := rfl
@[simp] theorem State.setFSR_V : (s.setFSR v).V = s.V := rfl
@[simp] theorem State.setFSR_stack : (s.setFSR v).stack = s.stack := rfl
@[simp] theorem State.setFSR_sp : (s.setFSR v).sp = s.sp := rfl
@[simp] theorem State.setFSR_disp : (s.setFSR v).disp = s.disp := rfl
@[simp] theorem State.setFSR_DT : (s.setFSR v).DT = s.DT := rfl
@[simp] theorem State.setFSR_ST : (s.setFSR v).ST = s.ST := rfl
@[simp] theorem State.setFSR_key : (s.setFSR v).key = s.key := rfl
@[simp] theorem State.setFSR_FSR : (s.setFSR v).FSR = v := rfl
@[simp] theorem State.setFSR_rndDraws : (s.setFSR v).rndDraws = s.rndDraws := rfl
end

section
variable (s : State) (v : Nat)
@[simp] theorem State.setRndDraws_pc : (s.setRndDraws v).pc = s.pc := rfl
@[simp] theorem State.setRndDraws_mem : (s.setRndDraws v).mem = s.mem := rfl
@[simp] theorem State.setRndDraws_I : (s.setRndDraws v).I = s.I := rfl
@[simp] theorem State.setRndDraws_V : (s.setRndDraws v).V = s.V := rfl
@[simp] theorem State.setRndDraws_stack : (s.setRndDraws v).stack = s.stack := rfl
@[simp] theorem State.setRndDraws_sp : (s.setRndDraws v).sp = s.sp := rfl
@[simp] theorem State.setRndDraws_disp : (s.setRndDraws v).disp = s.disp := rfl
@[simp] theorem State.setRndDraws_DT : (s.setRndDraws v).DT = s.DT := rfl
@[simp] theorem State.setRndDraws_ST : (s.setRndDraws v).ST = s.ST := rfl
@[simp] theorem State.setRndDraws_key : (s.setRndDraws v).key = s.key := rfl
@[simp] theorem State.setRndDraws_FSR : (s.setRndDraws v).FSR = s.FSR := rfl
@[simp] theorem State.setRndDraws_rndDraws : (s.setRndDraws v).rndDraws = v := rfl
end

/-! The shared operations that write one field, field by field. -/

section
variable (s : State)
@[simp] theorem State.advance_pc : s.advance.pc = s.pc + 2#16 := rfl
@[simp] theorem State.advance_mem : s.advance.mem = s.mem := rfl
@[simp] theorem State.advance_I : s.advance.I = s.I := rfl
@[simp] theorem State.advance_V : s.advance.V = s.V := rfl
@[simp] theorem State.advance_stack : s.advance.stack = s.stack := rfl
@[simp] theorem State.advance_sp : s.advance.sp = s.sp := rfl
@[simp] theorem State.advance_disp : s.advance.disp = s.disp := rfl
@[simp] theorem State.advance_DT : s.advance.DT = s.DT := rfl
@[simp] theorem State.advance_ST : s.advance.ST = s.ST := rfl
@[simp] theorem State.advance_key : s.advance.key = s.key := rfl
@[simp] theorem State.advance_FSR : s.advance.FSR = s.FSR := rfl
@[simp] theorem State.advance_rndDraws : s.advance.rndDraws = s.rndDraws := rfl
@[simp] theorem State.consumeRandom_pc : s.consumeRandom.pc = s.pc := rfl
@[simp] theorem State.consumeRandom_mem : s.consumeRandom.mem = s.mem := rfl
@[simp] theorem State.consumeRandom_I : s.consumeRandom.I = s.I := rfl
@[simp] theorem State.consumeRandom_V : s.consumeRandom.V = s.V := rfl
@[simp] theorem State.consumeRandom_stack : s.consumeRandom.stack = s.stack := rfl
@[simp] theorem State.consumeRandom_sp : s.consumeRandom.sp = s.sp := rfl
@[simp] theorem State.consumeRandom_disp : s.consumeRandom.disp = s.disp := rfl
@[simp] theorem State.consumeRandom_DT : s.consumeRandom.DT = s.DT := rfl
@[simp] theorem State.consumeRandom_ST : s.consumeRandom.ST = s.ST := rfl
@[simp] theorem State.consumeRandom_key : s.consumeRandom.key = s.key := rfl
@[simp] theorem State.consumeRandom_FSR : s.consumeRandom.FSR = s.FSR := rfl
@[simp] theorem State.consumeRandom_rndDraws : s.consumeRandom.rndDraws = s.rndDraws + 1 := rfl
end

section
variable (s : State) (x : Reg) (b : Byte)
@[simp] theorem State.writeV_pc : (s.writeV x b).pc = s.pc := rfl
@[simp] theorem State.writeV_mem : (s.writeV x b).mem = s.mem := rfl
@[simp] theorem State.writeV_I : (s.writeV x b).I = s.I := rfl
@[simp] theorem State.writeV_V : (s.writeV x b).V = s.V.set x.val b x.isLt := rfl
@[simp] theorem State.writeV_stack : (s.writeV x b).stack = s.stack := rfl
@[simp] theorem State.writeV_sp : (s.writeV x b).sp = s.sp := rfl
@[simp] theorem State.writeV_disp : (s.writeV x b).disp = s.disp := rfl
@[simp] theorem State.writeV_DT : (s.writeV x b).DT = s.DT := rfl
@[simp] theorem State.writeV_ST : (s.writeV x b).ST = s.ST := rfl
@[simp] theorem State.writeV_key : (s.writeV x b).key = s.key := rfl
@[simp] theorem State.writeV_FSR : (s.writeV x b).FSR = s.FSR := rfl
@[simp] theorem State.writeV_rndDraws : (s.writeV x b).rndDraws = s.rndDraws := rfl
end

section
variable (s : State) (c : FaultCause) (ins : Option Word)
@[simp] theorem State.takeFault_pc : (s.takeFault c ins).pc = s.pc := rfl
@[simp] theorem State.takeFault_mem : (s.takeFault c ins).mem = s.mem := rfl
@[simp] theorem State.takeFault_I : (s.takeFault c ins).I = s.I := rfl
@[simp] theorem State.takeFault_V : (s.takeFault c ins).V = s.V := rfl
@[simp] theorem State.takeFault_stack : (s.takeFault c ins).stack = s.stack := rfl
@[simp] theorem State.takeFault_sp : (s.takeFault c ins).sp = s.sp := rfl
@[simp] theorem State.takeFault_disp : (s.takeFault c ins).disp = s.disp := rfl
@[simp] theorem State.takeFault_DT : (s.takeFault c ins).DT = s.DT := rfl
@[simp] theorem State.takeFault_ST : (s.takeFault c ins).ST = s.ST := rfl
@[simp] theorem State.takeFault_key : (s.takeFault c ins).key = s.key := rfl
@[simp] theorem State.takeFault_FSR : (s.takeFault c ins).FSR = ⟨true, c.code, s.pc, ins.getD 0x0000#16, ins.isSome⟩ := rfl
@[simp] theorem State.takeFault_rndDraws : (s.takeFault c ins).rndDraws = s.rndDraws := rfl
end

section
variable (s : State) (c : Bool)
@[simp] theorem State.skipIf_pc : (s.skipIf c).pc = if c then s.pc + 2#16 else s.pc := by cases c <;> rfl
@[simp] theorem State.skipIf_mem : (s.skipIf c).mem = s.mem := by cases c <;> rfl
@[simp] theorem State.skipIf_I : (s.skipIf c).I = s.I := by cases c <;> rfl
@[simp] theorem State.skipIf_V : (s.skipIf c).V = s.V := by cases c <;> rfl
@[simp] theorem State.skipIf_stack : (s.skipIf c).stack = s.stack := by cases c <;> rfl
@[simp] theorem State.skipIf_sp : (s.skipIf c).sp = s.sp := by cases c <;> rfl
@[simp] theorem State.skipIf_disp : (s.skipIf c).disp = s.disp := by cases c <;> rfl
@[simp] theorem State.skipIf_DT : (s.skipIf c).DT = s.DT := by cases c <;> rfl
@[simp] theorem State.skipIf_ST : (s.skipIf c).ST = s.ST := by cases c <;> rfl
@[simp] theorem State.skipIf_key : (s.skipIf c).key = s.key := by cases c <;> rfl
@[simp] theorem State.skipIf_FSR : (s.skipIf c).FSR = s.FSR := by cases c <;> rfl
@[simp] theorem State.skipIf_rndDraws : (s.skipIf c).rndDraws = s.rndDraws := by cases c <;> rfl
@[simp] theorem State.resetInPlace_pc : s.resetInPlace.pc = State.reset.pc := rfl
@[simp] theorem State.resetInPlace_mem : s.resetInPlace.mem = State.reset.mem := rfl
@[simp] theorem State.resetInPlace_I : s.resetInPlace.I = State.reset.I := rfl
@[simp] theorem State.resetInPlace_V : s.resetInPlace.V = State.reset.V := rfl
@[simp] theorem State.resetInPlace_stack : s.resetInPlace.stack = State.reset.stack := rfl
@[simp] theorem State.resetInPlace_sp : s.resetInPlace.sp = State.reset.sp := rfl
@[simp] theorem State.resetInPlace_disp : s.resetInPlace.disp = State.reset.disp := rfl
@[simp] theorem State.resetInPlace_DT : s.resetInPlace.DT = State.reset.DT := rfl
@[simp] theorem State.resetInPlace_ST : s.resetInPlace.ST = State.reset.ST := rfl
@[simp] theorem State.resetInPlace_key : s.resetInPlace.key = State.reset.key := rfl
@[simp] theorem State.resetInPlace_FSR : s.resetInPlace.FSR = State.reset.FSR := rfl
@[simp] theorem State.resetInPlace_rndDraws : s.resetInPlace.rndDraws = s.rndDraws := rfl
@[simp] theorem State.setRndDraws_toMachineState (n : Nat) : (s.setRndDraws n).toMachineState = s.toMachineState := rfl
@[simp] theorem State.consumeRandom_toMachineState : s.consumeRandom.toMachineState = s.toMachineState := rfl
@[simp] theorem State.resetInPlace_toMachineState : s.resetInPlace.toMachineState = State.reset.toMachineState := rfl
end

end Sys2Proof.Machine
end

