-- ==== Sys2Proof/Laws/Ops.lean ====
section
/-! SUPPORT. What each shared operation over the state can do, once. -/

namespace Sys2Proof.Machine

/-! ## Registers -/

theorem State.readV_eq (s : State) (x : Reg) : s.readV x = s.V[x] := rfl

@[simp] theorem State.readV_writeV_same (s : State) (x : Reg) (b : Byte) : (s.writeV x b).readV x = b := by
  simp [State.readV]

@[simp] theorem State.readV_writeV_other (s : State) {x k : Reg} (b : Byte) (h : k ≠ x) :
    (s.writeV x b).readV k = s.readV k := by
  have : x.val ≠ k.val := fun e => h (Fin.ext e.symm)
  simp [State.readV, this]

theorem State.readV_writeV (s : State) (x k : Reg) (b : Byte) :
    (s.writeV x b).readV k = if k = x then b else s.readV k := by
  split
  · next h => subst h; simp
  · next h => simp [h]

/-- Registers are read from the field `V` alone. -/
theorem State.readV_congr {s t : State} (h : t.V = s.V) (k : Reg) : t.readV k = s.readV k := by
  simp [State.readV, h]

@[simp] theorem State.readV_advance (s : State) (k : Reg) : s.advance.readV k = s.readV k := rfl
@[simp] theorem State.readV_setPc (s : State) (v : Word) (k : Reg) : (s.setPc v).readV k = s.readV k := rfl
@[simp] theorem State.readV_setI (s : State) (v : Word) (k : Reg) : (s.setI v).readV k = s.readV k := rfl
@[simp] theorem State.readV_setMem (s : State) (v : Memory) (k : Reg) : (s.setMem v).readV k = s.readV k := rfl
@[simp] theorem State.readV_setDisp (s : State) (v : Display) (k : Reg) : (s.setDisp v).readV k = s.readV k := rfl
@[simp] theorem State.readV_consumeRandom (s : State) (k : Reg) : s.consumeRandom.readV k = s.readV k := rfl
@[simp] theorem State.readV_setRndDraws (s : State) (v : Nat) (k : Reg) : (s.setRndDraws v).readV k = s.readV k := rfl
@[simp] theorem State.readV_takeFault (s : State) (c : FaultCause) (w : Option Word) (k : Reg) :
    (s.takeFault c w).readV k = s.readV k := rfl
@[simp] theorem State.readV_skipIf (s : State) (c : Bool) (k : Reg) : (s.skipIf c).readV k = s.readV k := by
  cases c <;> rfl

/-! ## Call stack -/

theorem State.push_eq_none_iff (s : State) (w : Word) : s.push w = none ↔ s.sp.val = 48 := by
  have := s.sp.isLt
  unfold State.push
  split
  · next h => simp; omega
  · next h => simp; omega

/-- Everything a push can do. -/
theorem State.push_eq_some {s t : State} {w : Word} (e : s.push w = some t) :
    ∃ h : s.sp.val < 48, t = (s.setStack (s.stack.set s.sp.val w h)).setSp ⟨s.sp.val + 1, Nat.succ_lt_succ h⟩ := by
  unfold State.push at e
  split at e
  · next h => exact ⟨h, (Option.some.inj e).symm⟩
  · exact absurd e nofun

theorem State.push_of_lt (s : State) (w : Word) (h : s.sp.val < 48) :
    s.push w = some ((s.setStack (s.stack.set s.sp.val w h)).setSp ⟨s.sp.val + 1, Nat.succ_lt_succ h⟩) := by
  simp [State.push, h]

theorem State.pop_eq_none_iff (s : State) : s.pop = none ↔ s.sp.val = 0 := by
  unfold State.pop
  split <;> simp <;> omega

/-- Everything a pop can do. -/
theorem State.pop_eq_some {s t : State} {w : Word} (e : s.pop = some (w, t)) :
    ∃ h : 0 < s.sp.val, w = s.stack[s.sp.val - 1]'(by have := s.sp.isLt; omega) ∧
      t = s.setSp ⟨s.sp.val - 1, by have := s.sp.isLt; omega⟩ := by
  unfold State.pop at e
  split at e
  · next h => cases e; exact ⟨h, rfl, rfl⟩
  · exact absurd e nofun

theorem State.pop_of_pos (s : State) (h : 0 < s.sp.val) :
    s.pop = some (s.stack[s.sp.val - 1]'(by have := s.sp.isLt; omega), s.setSp ⟨s.sp.val - 1, by have := s.sp.isLt; omega⟩) := by
  simp [State.pop, h]

/-! ## Memory read and fetch -/

@[simp] theorem Memory.length_readBytes (m : Memory) (a n : Nat) : (Memory.readBytes m a n).length = n := by
  induction n generalizing a with
  | zero => rfl
  | succ n ih => simp [Memory.readBytes, ih]

theorem Memory.getElem?_readBytes (m : Memory) (a n k : Nat) (h : k < n) :
    (Memory.readBytes m a n)[k]? = some (Memory.read m (a + k)) := by
  induction n generalizing a k with
  | zero => omega
  | succ n ih =>
    cases k with
    | zero => simp [Memory.readBytes]
    | succ k => simp [Memory.readBytes, ih (a + 1) k (by omega), Nat.add_assoc, Nat.add_comm 1 k]

theorem memRead_eq_none_iff (m : Memory) (addr n : Nat) : memRead m addr n = none ↔ 0 < n ∧ 4095 < addr + n - 1 := by
  unfold memRead
  split <;> simp_all

/-- Everything a read can answer. -/
theorem memRead_eq_some {m : Memory} {addr n : Nat} {bytes : List Byte} (e : memRead m addr n = some bytes) :
    (n = 0 ∨ addr + n ≤ 4096) ∧ bytes = Memory.readBytes m addr n := by
  unfold memRead at e
  split at e
  · exact absurd e nofun
  · next h => exact ⟨by omega, (Option.some.inj e).symm⟩

theorem memRead_of_fits (m : Memory) (addr n : Nat) (h : n = 0 ∨ addr + n ≤ 4096) :
    memRead m addr n = some (Memory.readBytes m addr n) := by
  unfold memRead
  split
  · omega
  · rfl

/-- A fetch inside memory answers the two bytes at `pc`. -/
theorem State.fetch_of_le (s : State) (h : s.pc.toNat ≤ 4094) :
    s.fetch = some (wordOfBytes (s.mem.read s.pc.toNat) (s.mem.read (s.pc.toNat + 1))) := by
  simp [State.fetch, memRead_of_fits s.mem s.pc.toNat 2 (by omega), Memory.readBytes]

/-- A fetch above 4094 raises. -/
theorem State.fetch_of_gt (s : State) (h : 4094 < s.pc.toNat) : s.fetch = none := by
  simp [State.fetch, (memRead_eq_none_iff s.mem s.pc.toNat 2).2 (by omega)]

theorem State.fetch_eq_none_iff (s : State) : s.fetch = none ↔ 4094 < s.pc.toNat := by
  by_cases h : s.pc.toNat ≤ 4094
  · simp [State.fetch_of_le s h]; omega
  · simp [State.fetch_of_gt s (by omega)]; omega

/-- A fetch reads `pc` and memory alone. -/
theorem State.fetch_congr {s t : State} (hp : t.pc = s.pc) (hm : t.mem = s.mem) : t.fetch = s.fetch := by
  simp [State.fetch, hp, hm]

@[simp] theorem State.fetch_setRndDraws (s : State) (v : Nat) : (s.setRndDraws v).fetch = s.fetch := rfl

/-! ## The model's own counter takes no part in the other operations -/

theorem State.halted_setRndDraws (s : State) (v : Nat) : (s.setRndDraws v).halted = s.halted := rfl

theorem State.advance_setRndDraws (s : State) (v : Nat) : (s.setRndDraws v).advance = s.advance.setRndDraws v := rfl

theorem State.skipIf_setRndDraws (s : State) (v : Nat) (c : Bool) : (s.setRndDraws v).skipIf c = (s.skipIf c).setRndDraws v := by
  cases c <;> rfl

theorem State.push_setRndDraws (s : State) (v : Nat) (w : Word) :
    (s.setRndDraws v).push w = (s.push w).map (State.setRndDraws · v) := by
  by_cases h : s.sp.val < 48
  · simp [State.push, h]; rfl
  · simp [State.push, h]

theorem State.pop_setRndDraws (s : State) (v : Nat) :
    (s.setRndDraws v).pop = s.pop.map fun p => (p.1, p.2.setRndDraws v) := by
  by_cases h : 0 < s.sp.val
  · simp [State.pop, h]; rfl
  · simp [State.pop, h]

end Sys2Proof.Machine
end

