-- ==== Sys2Proof/Laws/PerInstr.lean ====
section
/-! SUPPORT. One lemma per instruction: its encoding is selected by its own row of the opcode map. -/

namespace Sys2Proof.Laws.RowSelects

/-- "A row selects `ins` exactly when `ins AND mask = match`" (spec/30_encoding.md R73), for the encoding of `i` and its row. -/
def Statement (i : Instr) : Prop := i.wellFormed = true ∧ i.mnemonic.selects (encode i)

theorem of_op {i : Instr} (op : BitVec 4) (hm : i.mnemonic.mask = 0xF000#16)
    (hb : i.mnemonic.matchBits = (op ++ 0#4) ++ (0#4 ++ 0#4)) (h : fieldOp (encode i) = op.toFin) : Statement i :=
  ⟨i.wellFormed_eq_true, by rw [Mnemonic.selects, hm, hb, mask_F000_iff]; exact h⟩

theorem of_op_n {i : Instr} (op n : BitVec 4) (hm : i.mnemonic.mask = 0xF00F#16)
    (hb : i.mnemonic.matchBits = (op ++ 0#4) ++ (0#4 ++ n)) (h : fieldOp (encode i) = op.toFin) (h' : fieldN (encode i) = n.toFin) :
    Statement i :=
  ⟨i.wellFormed_eq_true, by rw [Mnemonic.selects, hm, hb, mask_F00F_iff]; exact ⟨h, h'⟩⟩

theorem nop : Statement .nop := ⟨rfl, by decide⟩
theorem cls : Statement .cls := ⟨rfl, by decide⟩
theorem ret : Statement .ret := ⟨rfl, by decide⟩
theorem jp (nnn : Imm12) : Statement (.jp nnn) := of_op 0x1#4 rfl rfl (fieldOp_encodeNNN _ _)
theorem call (nnn : Imm12) : Statement (.call nnn) := of_op 0x2#4 rfl rfl (fieldOp_encodeNNN _ _)
theorem seImm (x : Reg) (nn : Byte) : Statement (.seImm x nn) := of_op 0x3#4 rfl rfl (fieldOp_encodeXNN _ _ _)
theorem sneImm (x : Reg) (nn : Byte) : Statement (.sneImm x nn) := of_op 0x4#4 rfl rfl (fieldOp_encodeXNN _ _ _)
theorem seReg (x y : Reg) : Statement (.seReg x y) :=
  of_op_n 0x5#4 0x0#4 rfl rfl (fieldOp_encodeXYN _ _ _ _) (fieldN_encodeXYN _ _ _ _)
theorem ldImm (x : Reg) (nn : Byte) : Statement (.ldImm x nn) := of_op 0x6#4 rfl rfl (fieldOp_encodeXNN _ _ _)
theorem addImm (x : Reg) (nn : Byte) : Statement (.addImm x nn) := of_op 0x7#4 rfl rfl (fieldOp_encodeXNN _ _ _)
theorem ldReg (x y : Reg) : Statement (.ldReg x y) :=
  of_op_n 0x8#4 0x0#4 rfl rfl (fieldOp_encodeXYN _ _ _ _) (fieldN_encodeXYN _ _ _ _)
theorem or (x y : Reg) : Statement (.or x y) :=
  of_op_n 0x8#4 0x1#4 rfl rfl (fieldOp_encodeXYN _ _ _ _) (fieldN_encodeXYN _ _ _ _)
theorem and (x y : Reg) : Statement (.and x y) :=
  of_op_n 0x8#4 0x2#4 rfl rfl (fieldOp_encodeXYN _ _ _ _) (fieldN_encodeXYN _ _ _ _)
theorem xor (x y : Reg) : Statement (.xor x y) :=
  of_op_n 0x8#4 0x3#4 rfl rfl (fieldOp_encodeXYN _ _ _ _) (fieldN_encodeXYN _ _ _ _)
theorem addReg (x y : Reg) : Statement (.addReg x y) :=
  of_op_n 0x8#4 0x4#4 rfl rfl (fieldOp_encodeXYN _ _ _ _) (fieldN_encodeXYN _ _ _ _)
theorem sub (x y : Reg) : Statement (.sub x y) :=
  of_op_n 0x8#4 0x5#4 rfl rfl (fieldOp_encodeXYN _ _ _ _) (fieldN_encodeXYN _ _ _ _)
theorem shr (x y : Reg) : Statement (.shr x y) :=
  of_op_n 0x8#4 0x6#4 rfl rfl (fieldOp_encodeXYN _ _ _ _) (fieldN_encodeXYN _ _ _ _)
theorem subn (x y : Reg) : Statement (.subn x y) :=
  of_op_n 0x8#4 0x7#4 rfl rfl (fieldOp_encodeXYN _ _ _ _) (fieldN_encodeXYN _ _ _ _)
theorem shl (x y : Reg) : Statement (.shl x y) :=
  of_op_n 0x8#4 0xE#4 rfl rfl (fieldOp_encodeXYN _ _ _ _) (fieldN_encodeXYN _ _ _ _)
theorem sneReg (x y : Reg) : Statement (.sneReg x y) :=
  of_op_n 0x9#4 0x0#4 rfl rfl (fieldOp_encodeXYN _ _ _ _) (fieldN_encodeXYN _ _ _ _)
theorem ldI (nnn : Imm12) : Statement (.ldI nnn) := of_op 0xA#4 rfl rfl (fieldOp_encodeNNN _ _)
theorem jpV0 (nnn : Imm12) : Statement (.jpV0 nnn) := of_op 0xB#4 rfl rfl (fieldOp_encodeNNN _ _)
theorem rnd (x : Reg) (nn : Byte) : Statement (.rnd x nn) := of_op 0xC#4 rfl rfl (fieldOp_encodeXNN _ _ _)
theorem drw (x y : Reg) (n : Fin 16) : Statement (.drw x y n) := of_op 0xD#4 rfl rfl (fieldOp_encodeXYN _ _ _ _)

end Sys2Proof.Laws.RowSelects
end

