-- ==== Sys2Proof/Laws/Step.lean ====
section
/-! SUPPORT. Everything a Step can do, once; every claim over all Steps starts from it. -/

namespace Sys2Proof.Machine

/-- The body of a Step, whatever the meanings are, is a halted Step, a fetch that raised, an unmatched word, or one meaning. -/
theorem stepBy_cases {run : Instr → State → Host.Outcome State Fault Refusal} {s t : State} (h : stepBy run s = .next t) :
    (s.halted = true ∧ t = s) ∨
    (s.halted = false ∧ s.fetch = none ∧ t = s.takeFault .memOob none) ∨
    (∃ ins, s.halted = false ∧ s.fetch = some ins ∧ decodeWord ins = .unsupported ins ∧
      t = s.takeFault .unsupported (some ins)) ∨
    (∃ ins i, s.halted = false ∧ s.fetch = some ins ∧ decodeWord ins = .instr i ∧ run i s = .next t) := by
  unfold stepBy at h
  split at h
  · next hh => exact .inl ⟨hh, (Host.Outcome.next.inj h).symm⟩
  · next hh =>
    simp only [Bool.not_eq_true] at hh
    split at h
    · next hf => exact .inr (.inl ⟨hh, hf, (Host.Outcome.next.inj h).symm⟩)
    · next ins hf =>
      split at h
      · next i hd => exact .inr (.inr (.inr ⟨ins, i, hh, hf, hd, h⟩))
      · next ins' hd =>
        have : ins' = ins := by
          unfold decodeWord decodeFamily0 decodeFamily8 at hd
          split at hd <;> (try split at hd) <;> (try split at hd) <;> (try split at hd) <;> simp_all
        subst this
        exact .inr (.inr (.inl ⟨ins', hh, hf, hd, (Host.Outcome.next.inj h).symm⟩))
      · next hd => exact absurd hd (decodeWord_ne_truncated ins)

/-- A Step is a halted Step, a fetch that raised, an unmatched word, or one meaning. -/
theorem step_cases {s t : State} (h : step s = .next t) :
    (s.halted = true ∧ t = s) ∨
    (s.halted = false ∧ s.fetch = none ∧ t = s.takeFault .memOob none) ∨
    (∃ ins, s.halted = false ∧ s.fetch = some ins ∧ decodeWord ins = .unsupported ins ∧
      t = s.takeFault .unsupported (some ins)) ∨
    (∃ ins i, s.halted = false ∧ s.fetch = some ins ∧ decodeWord ins = .instr i ∧ exec i s = .next t) :=
  stepBy_cases h

/-- The four ways of a Step, as equations. -/
theorem stepBy_halted (run : Instr → State → Host.Outcome State Fault Refusal) {s : State} (h : s.halted = true) :
    stepBy run s = .next s := by simp [stepBy, h, stepHalted]

theorem stepBy_fetchFault (run : Instr → State → Host.Outcome State Fault Refusal) {s : State} (h : s.halted = false)
    (hf : s.fetch = none) : stepBy run s = .next (s.takeFault .memOob none) := by simp [stepBy, h, hf, stepFetchFault]

theorem stepBy_unsupported (run : Instr → State → Host.Outcome State Fault Refusal) {s : State} {ins : Word}
    (h : s.halted = false) (hf : s.fetch = some ins) (hd : decodeWord ins = .unsupported ins) :
    stepBy run s = .next (s.takeFault .unsupported (some ins)) := by simp [stepBy, h, hf, hd, stepUnsupported]

theorem stepBy_instr (run : Instr → State → Host.Outcome State Fault Refusal) {s : State} {ins : Word} {i : Instr}
    (h : s.halted = false) (hf : s.fetch = some ins) (hd : decodeWord ins = .instr i) : stepBy run s = run i s := by
  simp [stepBy, h, hf, hd]

/-- The byte of a Step is given to RND alone. -/
theorem execWith_rnd (r : Byte) (x : Reg) (nn : Byte) (s : State) : execWith r (.rnd x nn) s = .next (rndWith r x nn s) := rfl

theorem execWith_of_ne_rnd (r : Byte) {i : Instr} (h : i.mnemonic ≠ .RND) (s : State) : execWith r i s = exec i s := by
  cases i <;> first | rfl | exact absurd rfl h

/-- The host's Step is `stepWith` with its report. -/
theorem hostStep_of_next {r : Byte} {s t : State} (h : stepWith r s = .next t) :
    hostStep r s = .next (t, .step (stepReport s t)) := by simp [hostStep, h]

/-- An operation on the machine state alone is the operation beside any index of the source. -/
theorem MachineState.apply_of_next {op : HostOp} {m : MachineState} {t : State} {r : Reply}
    (h : op.apply { m with rndDraws := 0 } = .next (t, r)) : MachineState.apply op m = .next (t.toMachineState, r) := by
  simp [MachineState.apply, h]

end Sys2Proof.Machine
end

