-- ==== Sys2Proof/Tests/Slice0.lean ====
section
/-! SUPPORT. Tests. Expected values are those of spec/95_test_vectors.md (the vector is named) or are worked out from the rule named;
the last part shows, for every statement with hypotheses, a state and operands that meet them. -/

namespace Sys2Proof.Tests

open Sys2Proof.Machine

/-- The outcome is a next state with the property. -/
def nextIs (o : Host.Outcome State Fault Refusal) (p : State → Bool) : Bool :=
  match o with
  | .next t => p t
  | .fault _ => false
  | .refused _ => false

/-- The reset state with one instruction loaded at 0x200. -/
def loaded (w : Nat) : State := State.reset.withFetchWord 16 w

/-- The Step of that instruction from a state changed as a vector says. -/
def runs (w : Nat) (change : State → State) (p : State → Bool) : Bool := nextIs (step (change (loaded w))) p

/-- Two registers set. -/
def regs (x : Reg) (a : Byte) (y : Reg) (b : Byte) (s : State) : State := (s.writeV x a).writeV y b

/-! ## Checks refuse ill-formed terms -/

theorem test_program_of_3584_bytes_fits : Program.wellFormed (List.replicate 3584 0x00#8) = true := by
  rw [Program.wellFormed, List.length_replicate]; rfl

theorem test_program_of_3585_bytes_is_refused : Program.wellFormed (List.replicate 3585 0x00#8) = false := by
  rw [Program.wellFormed, List.length_replicate]; rfl

theorem test_memory_out_of_order_is_refused : Memory.wf [(0x201, 1#8), (0x200, 1#8)] = false := by decide
theorem test_memory_repeated_address_is_refused : Memory.wf [(0x200, 1#8), (0x200, 2#8)] = false := by decide
theorem test_memory_cell_equal_to_reset_is_refused : Memory.wf [(0x200, 0#8)] = false := by decide
theorem test_memory_address_4096_is_refused : Memory.wf [(4096, 1#8)] = false := by decide
theorem test_memory_canonical : Memory.wf [(0x200, 1#8), (0xFFF, 2#8)] = true := by decide
theorem test_instr_operands_in_range : (Instr.drw 15 15 15).wellFormed = true := by decide

/-! ## Decoding: spec/95_test_vectors.md 2.1, one word per constructor, then illegal words and their neighbours -/

theorem test_decode_nop : decodeWord 0x0000#16 = .instr .nop := by decide
theorem test_decode_cls : decodeWord 0x00E0#16 = .instr .cls := by decide
theorem test_decode_ret : decodeWord 0x00EE#16 = .instr .ret := by decide
theorem test_decode_jp : decodeWord 0x1ABC#16 = .instr (.jp 0xABC#12) := by decide
theorem test_decode_call : decodeWord 0x2208#16 = .instr (.call 0x208#12) := by decide
theorem test_decode_seImm : decodeWord 0x3A7F#16 = .instr (.seImm 0xA 0x7F#8) := by decide
theorem test_decode_sneImm : decodeWord 0x4F00#16 = .instr (.sneImm 0xF 0x00#8) := by decide
theorem test_decode_seReg : decodeWord 0x5AB0#16 = .instr (.seReg 0xA 0xB) := by decide
theorem test_decode_ldImm : decodeWord 0x6C2A#16 = .instr (.ldImm 0xC 0x2A#8) := by decide
theorem test_decode_addImm : decodeWord 0x71FF#16 = .instr (.addImm 1 0xFF#8) := by decide
theorem test_decode_ldReg : decodeWord 0x8120#16 = .instr (.ldReg 1 2) := by decide
theorem test_decode_or : decodeWord 0x8121#16 = .instr (.or 1 2) := by decide
theorem test_decode_and : decodeWord 0x8122#16 = .instr (.and 1 2) := by decide
theorem test_decode_xor : decodeWord 0x8123#16 = .instr (.xor 1 2) := by decide
theorem test_decode_addReg : decodeWord 0x8124#16 = .instr (.addReg 1 2) := by decide
theorem test_decode_sub : decodeWord 0x8125#16 = .instr (.sub 1 2) := by decide
theorem test_decode_shr : decodeWord 0x8126#16 = .instr (.shr 1 2) := by decide
theorem test_decode_subn : decodeWord 0x8127#16 = .instr (.subn 1 2) := by decide
theorem test_decode_shl : decodeWord 0x812E#16 = .instr (.shl 1 2) := by decide
theorem test_decode_sneReg : decodeWord 0x9AB0#16 = .instr (.sneReg 0xA 0xB) := by decide
theorem test_decode_ldI : decodeWord 0xA20C#16 = .instr (.ldI 0x20C#12) := by decide
theorem test_decode_jpV0 : decodeWord 0xB300#16 = .instr (.jpV0 0x300#12) := by decide
theorem test_decode_rnd : decodeWord 0xC10F#16 = .instr (.rnd 1 0x0F#8) := by decide
theorem test_decode_drw : decodeWord 0xD015#16 = .instr (.drw 0 1 5) := by decide

/-- The illegal values listed under the table of 2.1. -/
theorem test_decode_illegal : [0x0001#16, 0x00E1#16, 0x00EF#16, 0x00FD#16, 0x0123#16, 0x0FFF#16, 0x5001#16, 0x534F#16, 0x8008#16, 0x800D#16,
    0x800F#16, 0x8129#16, 0x9001#16, 0x9ABF#16, 0xE09E#16, 0xE0A1#16, 0xE19E#16, 0xF007#16, 0xF00A#16, 0xF065#16, 0xFFFF#16].all
    (fun w => decide (decodeWord w = .unsupported w)) = true := by decide

/-- A23, A29: the y nibble of a shift selects nothing. -/
theorem test_decode_shift_y : decodeWord 0x83A6#16 = .instr (.shr 3 0xA) ∧ decodeWord 0x83AE#16 = .instr (.shl 3 0xA) := by decide

/-- Big-endian bytes, R53. -/
theorem test_decode_bytes : decode [0x12#8, 0x03#8, 0xFF#8] = (.instr (.jp 0x203#12), [0xFF#8]) := by decide
theorem test_decode_one_byte : decode [0x12#8] = (.truncated, []) := by decide
theorem test_encode_bytes : encodeBytes (.drw 0 1 2) = [0xD0#8, 0x12#8] := by decide
theorem test_table_word : decodeTableWord 16 0xD015 = some (.drw 0 1 5) := by decide
theorem test_table_word_illegal : decodeTableWord 16 0xE19E = none := by decide

/-- At reset, placing a word where the next Step fetches is the Load of its two bytes (log entry 8). -/
theorem test_fetch_word_is_a_load : loaded 0xD123 = (load [0xD1#8, 0x23#8] State.reset).1 := by decide

/-! ## Control flow: 2.2 -/

theorem test_K1_nop : runs 0x0000 id (fun t => decide (t = { State.reset with pc := 0x202#16 })) = true := by decide
theorem test_K2_jp_self : nextIs (step (loaded 0x1200)) (fun t => decide (t = loaded 0x1200)) = true := by decide
theorem test_K4_jp_odd : runs 0x1001 id (fun t => decide (t.pc = 0x0001#16)) = true := by decide
theorem test_K5_call : runs 0x2ABC id (fun t => decide (t.stack[0] = 0x0202#16 ∧ t.sp = 1 ∧ t.pc = 0x0ABC#16)) = true := by decide
theorem test_K6_ret : runs 0x00EE (fun s => (s.setSp 1).setStack (s.stack.set 0 0x0204#16))
    (fun t => decide (t.sp = 0 ∧ t.pc = 0x0204#16 ∧ t.stack[0] = 0x0204#16)) = true := by decide
theorem test_K7_ret_empty : runs 0x00EE id
    (fun t => decide (t = { loaded 0x00EE with FSR := ⟨true, 3#3, 0x0200#16, 0x00EE#16, true⟩ })) = true := by decide
theorem test_K8_call_full : runs 0x2200 (fun s => s.setSp 48)
    (fun t => decide (t.sp = 48 ∧ t.pc = 0x0200#16 ∧ t.FSR = ⟨true, 2#3, 0x0200#16, 0x2200#16, true⟩)) = true := by decide
theorem test_K9_call_48th : runs 0x2200 (fun s => s.setSp 47)
    (fun t => decide (t.sp = 48 ∧ t.pc = 0x0200#16 ∧ t.stack[47] = 0x0202#16)) = true := by decide
theorem test_K10_se_imm_skips : runs 0x3100 id (fun t => decide (t.pc = 0x0204#16)) = true := by decide
theorem test_K11_se_imm : runs 0x3100 (fun s => s.writeV 1 4#8) (fun t => decide (t.pc = 0x0202#16)) = true := by decide
theorem test_K12_sne_imm : runs 0x4207 (fun s => s.writeV 2 7#8) (fun t => decide (t.pc = 0x0202#16)) = true := by decide
theorem test_K13_sne_imm_skips : runs 0x4208 (fun s => s.writeV 2 7#8) (fun t => decide (t.pc = 0x0204#16)) = true := by decide
theorem test_K14_se_reg_skips : runs 0x5340 (regs 3 0x10#8 4 0x10#8) (fun t => decide (t.pc = 0x0204#16)) = true := by decide
theorem test_K15_se_reg : runs 0x5340 (regs 3 0x10#8 4 0x11#8) (fun t => decide (t.pc = 0x0202#16)) = true := by decide
theorem test_K17_sne_reg_skips : runs 0x9340 (regs 3 0x10#8 4 0x11#8) (fun t => decide (t.pc = 0x0204#16)) = true := by decide
theorem test_K19_sne_same_reg : runs 0x9330 (fun s => s.writeV 3 9#8) (fun t => decide (t.pc = 0x0202#16)) = true := by decide
theorem test_K21_jp_v0 : runs 0xB300 (fun s => s.writeV 0 4#8) (fun t => decide (t.pc = 0x0304#16)) = true := by decide
theorem test_K22_jp_v0_beyond_12_bits : runs 0xBFFF (fun s => s.writeV 0 0xFF#8) (fun t => decide (t.pc = 0x10FE#16)) = true := by decide

/-- K23: the skip past the end is no fault itself. -/
theorem test_K23_skip_past_end : nextIs (step { State.reset with pc := 0x0FFE#16, mem := [(0xFFE, 0x30#8)] })
    (fun t => decide (t.pc = 0x1002#16 ∧ t.halted = false)) = true := by decide

/-! ## Load, arithmetic and logic: 2.3 -/

theorem test_A1_add_carry : runs 0x8014 (regs 0 0xF0#8 1 0x20#8) (fun t => decide (t.readV 0 = 0x10#8 ∧ t.readV 15 = 1#8)) = true := by decide
theorem test_A30_add_vf : runs 0x8F14 (regs 15 0xF0#8 1 0x20#8) (fun t => decide (t.readV 15 = 1#8)) = true := by decide
theorem test_A8_sub_borrow : runs 0x8015 (regs 0 5#8 1 7#8) (fun t => decide (t.readV 0 = 0xFE#8 ∧ t.readV 15 = 0#8)) = true := by decide
theorem test_A10_sub_equal : runs 0x8015 (regs 0 7#8 1 7#8) (fun t => decide (t.readV 0 = 0#8 ∧ t.readV 15 = 1#8)) = true := by decide
theorem test_A14_subn : runs 0x8017 (regs 0 5#8 1 7#8) (fun t => decide (t.readV 0 = 2#8 ∧ t.readV 15 = 1#8)) = true := by decide
theorem test_A15_subn_borrow : runs 0x8017 (regs 0 7#8 1 5#8) (fun t => decide (t.readV 0 = 0xFE#8 ∧ t.readV 15 = 0#8)) = true := by decide
theorem test_A23_shr_ignores_y : runs 0x83A6 (regs 3 5#8 10 0xFF#8)
    (fun t => decide (t.readV 3 = 2#8 ∧ t.readV 10 = 0xFF#8 ∧ t.readV 15 = 1#8)) = true := by decide
theorem test_A36_shr_vf : runs 0x8F06 (fun s => s.writeV 15 0xFF#8) (fun t => decide (t.readV 15 = 0#8)) = true := by decide
theorem test_A24_shl : runs 0x830E (fun s => s.writeV 3 0x81#8) (fun t => decide (t.readV 3 = 2#8 ∧ t.readV 15 = 1#8)) = true := by decide
theorem test_A38_shl_vf : runs 0x8F0E (fun s => s.writeV 15 0x7F#8) (fun t => decide (t.readV 15 = 0#8)) = true := by decide
theorem test_A39_or : runs 0x8011 (fun s => (regs 0 0x0F#8 1 0xF0#8 s).writeV 15 0x55#8)
    (fun t => decide (t.readV 0 = 0xFF#8 ∧ t.readV 15 = 0x55#8)) = true := by decide
theorem test_A40_and : runs 0x8012 (fun s => (regs 0 0x3C#8 1 0x0F#8 s).writeV 15 0x55#8)
    (fun t => decide (t.readV 0 = 0x0C#8 ∧ t.readV 15 = 0x55#8)) = true := by decide
theorem test_A41_xor : runs 0x8013 (fun s => (regs 0 0xFF#8 1 0x0F#8 s).writeV 15 0x55#8)
    (fun t => decide (t.readV 0 = 0xF0#8 ∧ t.readV 15 = 0x55#8)) = true := by decide
theorem test_A43_ld_reg : runs 0x8120 (fun s => s.writeV 2 0x7E#8) (fun t => decide (t.readV 1 = 0x7E#8 ∧ t.readV 2 = 0x7E#8)) = true := by decide
theorem test_A45_add_imm_wraps : runs 0x7001 (fun s => s.writeV 0 0xFF#8) (fun t => decide (t.readV 0 = 0#8 ∧ t.readV 15 = 0#8)) = true := by decide
theorem test_A49_ld_imm_vf : runs 0x6FFF id (fun t => decide (t.readV 15 = 0xFF#8)) = true := by decide
theorem test_A51_ld_i : runs 0xAFFF id (fun t => decide (t.I = 0x0FFF#16 ∧ t.pc = 0x0202#16)) = true := by decide

/-- A52 and A55, with the byte `r` of the vector. -/
theorem test_A52_rnd : nextIs (stepWith 0xA7#8 (loaded 0xC10F)) (fun t => decide (t.readV 1 = 0x07#8)) = true ∧
    nextIs (stepWith 0xFF#8 (loaded 0xC1F0)) (fun t => decide (t.readV 1 = 0xF0#8)) = true := by decide

/-- A52 again, by the Step on the machine state alone: it takes the byte and gives back a machine state. -/
theorem test_A52_machine_state : (match MachineState.apply (.step 0xA7#8) (loaded 0xC10F).toMachineState with
    | .next (m, r) => decide (m.V[1] = 0x07#8 ∧ m.pc = 0x0202#16 ∧ r = .step .ok)
    | .fault _ => false
    | .refused _ => false) = true := by decide

/-- A54: with `nn = 0` the result is 0 whatever the free byte is. -/
theorem test_A54_rnd_masked : nextIs (step (loaded 0xC100)) (fun t => decide (t.pc = 0x0202#16 ∧ t.rndDraws = 1)) = true := by decide

/-! ## Display: 2.4 -/

/-- The first pixels are lit and the second ones are not. -/
def lit (d : Display) (on off : List (Fin 64 × Fin 32)) : Bool :=
  on.all (fun p => pixelAt d p.1 p.2) && off.all (fun p => !pixelAt d p.1 p.2)

/-- The start of G1. -/
def g1 : State := { regs 0 0x3F#8 1 0x05#8 (loaded 0xD011) with I := 0x300#16, mem := [(0x200, 0xD0#8), (0x201, 0x11#8), (0x300, 0xFF#8)] }

theorem test_G1_drw_wraps : nextIs (step g1) (fun t => decide (lit t.disp
    [(63, 5), (0, 5), (1, 5), (2, 5), (3, 5), (4, 5), (5, 5), (6, 5)] [(7, 5), (62, 5), (63, 4), (63, 6), (0, 4), (0, 6)] = true ∧
    t.readV 15 = 0#8)) = true := by decide

/-- G2, from the end state of G1. -/
theorem test_G2_drw_again : nextIs (exec (.drw 0 1 1) { g1 with disp := (drawSprite 0x3F#8 0x05#8 [0xFF#8] clearDisplay).1 })
    (fun t => decide (t.disp = clearDisplay ∧ t.readV 15 = 1#8)) = true := by decide

/-- The example of R152: two rows wrapping on both axes. -/
theorem test_drw_example : lit (drawSprite 62#8 31#8 [0xC3#8, 0x81#8] clearDisplay).1
    [(62, 31), (63, 31), (4, 31), (5, 31), (62, 0), (5, 0)] [(0, 31), (3, 31), (61, 31), (63, 0), (4, 0), (62, 1), (62, 30)] = true := by
  decide

/-- G9: the record of a sprite past the end, nothing else changed. -/
theorem test_G9_drw_past_memory : runs 0xD002 (fun s => (s.setI 0x0FFF#16).writeV 15 7#8)
    (fun t => decide (t.FSR = ⟨true, 4#3, 0x0200#16, 0xD002#16, true⟩ ∧ t.readV 15 = 7#8 ∧ t.pc = 0x0200#16)) = true := by decide

theorem test_G10_drw_no_rows : runs 0xD000 (fun s => (s.setI 0x0FFF#16).writeV 15 7#8)
    (fun t => decide (t.disp = clearDisplay ∧ t.readV 15 = 0#8 ∧ t.pc = 0x0202#16)) = true := by decide

theorem test_G13_cls : runs 0x00E0 (fun s => (s.setDisp (setPixel s.disp 63 31 true)).writeV 15 1#8)
    (fun t => decide (t.disp = clearDisplay ∧ t.readV 15 = 1#8)) = true := by decide

/-- P6: with the conventional font bytes of spec/93_implementation_defined.md G1 as a premise, glyph 0 lights the first pixel. -/
theorem test_P6_font_glyph (h : Config.fontRom 0 = 0xF0#8) : spriteBit (State.reset.mem.read 0) 0 = true := by
  simp [State.reset, Memory.read, resetByte, spriteBit, h]

/-! ## Faults and halt: 2.5 -/

theorem test_F3_unsupported : nextIs (step (loaded 0xE19E))
    (fun t => decide (t = { loaded 0xE19E with FSR := ⟨true, 1#3, 0x0200#16, 0xE19E#16, true⟩ })) = true := by decide

/-- F6: the fetch at 0x0FFF. -/
theorem test_F6_fetch_fault : nextIs (step { State.reset with pc := 0x0FFF#16 })
    (fun t => decide (t = { State.reset with pc := 0x0FFF#16, FSR := ⟨true, 4#3, 0x0FFF#16, 0x0000#16, false⟩ })) = true := by decide

/-- A halted engine with both timers running. -/
def haltedEngine : State := { loaded 0xE19E with FSR := ⟨true, 1#3, 0x0200#16, 0xE19E#16, true⟩, DT := 5#8, ST := 2#8 }

theorem test_F7_halted : nextIs (step haltedEngine) (fun t => decide (t = haltedEngine)) = true ∧
    (tick haltedEngine).1.DT = 4#8 ∧ (keySet 3 true haltedEngine).key[3] = true := by decide

theorem test_F8_reset : haltedEngine.resetInPlace = State.reset := by decide

/-- R133, R199: a Reset between two RND leaves the host free to supply any byte, and does not move the counter back. -/
theorem test_reset_keeps_counter : (haltedEngine.setRndDraws 3).resetInPlace.rndDraws = 3 := by decide

/-! ## Tick, Reset and Load: 2.6, 2.7 -/

theorem test_T4_T5_tick : (tick { State.reset with DT := 5#8, ST := 2#8 }) = ({ State.reset with DT := 4#8, ST := 1#8 }, false) ∧
    (tick { State.reset with DT := 4#8, ST := 1#8 }) = ({ State.reset with DT := 3#8, ST := 0#8 }, true) := by decide

/-- S8: exactly one edge. -/
theorem test_S8_one_edge : (tick { State.reset with ST := 1#8 }).2 = true ∧ (tick (tick { State.reset with ST := 1#8 }).1).2 = false := by
  decide

theorem test_L2_load : (load [0x00#8, 0xE0#8, 0x60#8, 0x05#8] State.reset).1.mem = [(0x201, 0xE0#8), (0x202, 0x60#8), (0x203, 0x05#8)] := by
  decide

/-- L6: a shorter program over a longer one. -/
theorem test_L6_load_over : (load [0x12#8, 0x00#8] (load [0x00#8, 0xE0#8, 0x60#8, 0x05#8] State.reset).1).1.mem =
    [(0x200, 0x12#8), (0x202, 0x60#8), (0x203, 0x05#8)] := by decide

theorem test_L4_load_too_long : load (List.replicate 3585 0x00#8) State.reset = (State.reset, .loadCapacity) := by
  rw [load, test_program_of_3585_bytes_is_refused]; rfl

theorem test_host_step_reports_fault : (match HostOp.apply (.step 0x00#8) (loaded 0xF00A) with
    | .next (_, r) => decide (r = .step (.fault 1#3))
    | .fault _ => false
    | .refused _ => false) = true := by decide

/-! ## Every statement with hypotheses: a state and operands that meet them -/

theorem no_row_selects_E19E : ∀ m : Mnemonic, ¬ m.selects 0xE19E#16 := by intro m; cases m <;> decide

theorem reset_inv : Inv State.reset where
  mem := rfl
  lowMem _ _ := rfl
  I := by decide
  pc := by decide
  stack := by decide
  fsrClear _ := rfl
  fsrCause := by decide
  fsrPc := by decide
  fsrFetch := by decide

theorem meets_EncodeOfDecodeIsTheWord : decodeWord 0xD015#16 = .instr (.drw 0 1 5) := by decide

theorem meets_MemReadChecksTheWholeAccess :
    (0 < 1 ∧ 4095 + 1 - 1 ≤ 4095) ∧ (0 < 2 ∧ 4095 < 4095 + 2 - 1) ∧ ((0 : Nat) = 0) := by decide

theorem meets_FetchIsBigEndianAndBounded :
    (State.reset.setPc 0x0FFE#16).pc.toNat ≤ 4094 ∧ 4094 < (State.reset.setPc 0x0FFF#16).pc.toNat := by decide

theorem meets_StepRunsTheDecodedInstruction :
    (loaded 0x6A12).halted = false ∧ (loaded 0x6A12).fetch = some 0x6A12#16 ∧ decodeWord 0x6A12#16 = .instr (.ldImm 10 0x12#8) := by
  decide

theorem meets_HaltedStepChangesNothing : haltedEngine.FSR.valid = true := by decide

theorem meets_FetchPastMemoryTakesMemOob :
    (State.reset.setPc 0x0FFF#16).halted = false ∧ 4094 < (State.reset.setPc 0x0FFF#16).pc.toNat := by decide

theorem meets_UnmatchedWordTakesUnsupported :
    (loaded 0xE19E).halted = false ∧ (loaded 0xE19E).fetch = some 0xE19E#16 ∧ ∀ m : Mnemonic, ¬ m.selects 0xE19E#16 :=
  ⟨by decide, by decide, no_row_selects_E19E⟩

/-- One state for each of the five ways a Step can fault. -/
theorem meets_EveryFaultIsPrecise :
    (∃ t, (loaded 0xE19E).halted = false ∧ step (loaded 0xE19E) = .next t ∧ t.halted = true) ∧
    (∃ t, ((loaded 0x2200).setSp 48).halted = false ∧ step ((loaded 0x2200).setSp 48) = .next t ∧ t.halted = true) ∧
    (∃ t, (loaded 0x00EE).halted = false ∧ step (loaded 0x00EE) = .next t ∧ t.halted = true) ∧
    (∃ t, ((loaded 0xD00F).setI 0x0FF2#16).halted = false ∧ step ((loaded 0xD00F).setI 0x0FF2#16) = .next t ∧ t.halted = true) ∧
    (∃ t, (State.reset.setPc 0x0FFF#16).halted = false ∧ step (State.reset.setPc 0x0FFF#16) = .next t ∧ t.halted = true) :=
  ⟨⟨_, rfl, rfl, rfl⟩, ⟨_, rfl, rfl, rfl⟩, ⟨_, rfl, rfl, rfl⟩, ⟨_, rfl, rfl, rfl⟩, ⟨_, rfl, rfl, rfl⟩⟩

theorem meets_CompletedStepCommitsOneInstruction :
    ∃ t, (loaded 0x6A12).halted = false ∧ step (loaded 0x6A12) = .next t ∧ t.halted = false := ⟨_, rfl, rfl, rfl⟩

/-- A writer of `I`, of the stack and `sp`, of the display, of the random source and of FSR. -/
theorem meets_EachElementHasOnlyItsNamedWriters :
    (∃ t, exec (.ldI 0x20C#12) State.reset = .next t ∧ t.I ≠ State.reset.I) ∧
    (∃ t, exec (.call 0x20C#12) State.reset = .next t ∧ t.stack ≠ State.reset.stack ∧ t.sp ≠ State.reset.sp) ∧
    (∃ t, exec (.drw 0 1 1) g1 = .next t ∧ t.disp ≠ g1.disp) ∧
    (∃ t, exec (.rnd 0 0#8) State.reset = .next t ∧ t.rndDraws ≠ State.reset.rndDraws) ∧
    (∃ t, exec .ret State.reset = .next t ∧ t.FSR ≠ State.reset.FSR) :=
  ⟨⟨_, rfl, by decide⟩, ⟨_, rfl, by decide, by decide⟩, ⟨_, rfl, by decide⟩, ⟨_, rfl, by decide⟩, ⟨_, rfl, by decide⟩⟩

theorem meets_RegistersOutsideTheTableAreKept :
    (∃ t, exec (.addReg 0 1) State.reset = .next t) ∧ (2 : Reg) ∉ writtenRegs (.addReg 0 1) := ⟨⟨_, rfl⟩, by decide⟩

theorem meets_EveryStepKeepsTheInvariant : Inv State.reset ∧ ∃ t, step State.reset = .next t := ⟨reset_inv, _, rfl⟩

theorem meets_EveryHostOperationKeepsTheInvariant : Inv State.reset ∧ ∃ t r, HostOp.apply .tick State.reset = .next (t, r) :=
  ⟨reset_inv, _, _, rfl⟩

theorem meets_StepTickAndKeySetCommute : ∃ t, step (loaded 0x6A12) = .next t := ⟨_, rfl⟩

theorem meets_NopOnlyAdvances : (0x0001#16 : Word).toNat < 0x1000 ∧ (0x0001#16 : Word) ≠ 0x0000#16 ∧ (0x0001#16 : Word) ≠ 0x00E0#16 ∧
    (0x0001#16 : Word) ≠ 0x00EE#16 ∧ (0x0FFF#16 : Word).toNat < 0x1000 := by decide

/-- One word for each row named in a statement's decoding clause. -/
theorem meets_decoding_clauses :
    (0x1ABC#16 : Word) &&& 0xF000#16 = 0x1000#16 ∧ (0xB300#16 : Word) &&& 0xF000#16 = 0xB000#16 ∧
    (0x3A7F#16 : Word) &&& 0xF000#16 = 0x3000#16 ∧ (0x4F00#16 : Word) &&& 0xF000#16 = 0x4000#16 ∧
    (0x5AB0#16 : Word) &&& 0xF00F#16 = 0x5000#16 ∧ (0x9AB0#16 : Word) &&& 0xF00F#16 = 0x9000#16 ∧
    (0x6C2A#16 : Word) &&& 0xF000#16 = 0x6000#16 ∧ (0x8120#16 : Word) &&& 0xF00F#16 = 0x8000#16 ∧
    (0x71FF#16 : Word) &&& 0xF000#16 = 0x7000#16 ∧ (0x8121#16 : Word) &&& 0xF00F#16 = 0x8001#16 ∧
    (0x8122#16 : Word) &&& 0xF00F#16 = 0x8002#16 ∧ (0x8123#16 : Word) &&& 0xF00F#16 = 0x8003#16 ∧
    (0xA20C#16 : Word) &&& 0xF000#16 = 0xA000#16 ∧
    ((0x534F#16 : Word) &&& 0xF000#16 = 0x5000#16 ∧ (0x534F#16 : Word) &&& 0x000F#16 ≠ 0#16) ∧
    ((0x9001#16 : Word) &&& 0xF000#16 = 0x9000#16 ∧ (0x9001#16 : Word) &&& 0x000F#16 ≠ 0#16) := by decide

theorem meets_CallPushesTheReturnAddress : (State.reset.setSp 47).sp.val < 48 ∧ State.reset.sp.val < 48 := by decide
theorem meets_CallOnFullStackTakesStackOverflow : (State.reset.setSp 48).sp.val = 48 := by decide
theorem meets_ReturnPopsIntoPc : 0 < (State.reset.setSp 1).sp.val ∧ 0 < (State.reset.setSp 48).sp.val := by decide
theorem meets_ReturnOnEmptyStackTakesStackUnderflow : State.reset.sp.val = 0 := by decide
theorem meets_CallThenReturnComesBack : (State.reset.setSp 47).sp.val < 48 := by decide

/-- The two cases of the statements on 8xy4 to 8xyE: `x` not 15, and `x = 15`. -/
theorem meets_register_cases : (14 : Reg) ≠ 15 ∧ (15 : Reg) = 15 := by decide

theorem meets_SubtractAndReversedAgree : (0 : Reg) ≠ 15 ∧ (14 : Reg) ≠ 15 := by decide

theorem meets_LoadIndexZeroExtends : (0xA20C#16 : Word) &&& 0xF000#16 = 0xA000#16 ∧
    ∃ t, exec (.ldI 0x20C#12) State.reset = .next t ∧ t.I ≠ State.reset.I := ⟨by decide, _, rfl, by decide⟩

theorem meets_ClearTurnsEveryPixelOff : 0x00E1 ≤ (0x00E1#16 : Word).toNat ∧ (0x00ED#16 : Word).toNat ≤ 0x00ED := by decide

/-- The masks at the ends of their range. -/
theorem meets_RandomByteIsMasked_host :
    (loaded 0xC10F).halted = false ∧ (loaded 0xC10F).fetch = some 0xC10F#16 ∧ decodeWord 0xC10F#16 = .instr (.rnd 1 0x0F#8) := by decide

theorem meets_RandomByteIsMasked : (0x00#8 : Byte) = 0x00#8 ∧ (0xFF#8 : Byte) = 0xFF#8 ∧ (14 : Reg) ≠ 15 := by decide

/-- The last sprite that fits, and no rows at any address. -/
theorem meets_DrawFlipsExactlyTheCoveredPixels :
    ((15 : Fin 16).val = 0 ∨ (State.reset.setI 0x0FF1#16).I.toNat + (15 : Fin 16).val ≤ 4096) ∧
    ((0 : Fin 16).val = 0 ∨ (State.reset.setI 0xFFFF#16).I.toNat + (0 : Fin 16).val ≤ 4096) := by decide

/-- The first sprite that does not fit. -/
theorem meets_DrawPastMemoryTakesMemOob :
    0 < (15 : Fin 16).val ∧ 4096 < (State.reset.setI 0x0FF2#16).I.toNat + (15 : Fin 16).val := by decide

theorem meets_DrawTwiceRestoresTheDisplay :
    (0 : Reg) ≠ 15 ∧ (1 : Reg) ≠ 15 ∧ ((1 : Fin 16).val = 0 ∨ g1.I.toNat + (1 : Fin 16).val ≤ 4096) := by decide

theorem meets_ResetGivesTheListedState : (HostOp.reset = .reset ∨ HostOp.reset = .powerOn) ∧
    (HostOp.powerOn = .reset ∨ HostOp.powerOn = .powerOn) := ⟨.inl rfl, .inr rfl⟩

theorem meets_LoadCopiesAllOrNothing : State.reset.mem.wf = true ∧ (List.replicate 3584 0x01#8).length ≤ 3584 ∧
    3584 < (List.replicate 3585 0x01#8).length := by rw [List.length_replicate, List.length_replicate]; decide

theorem meets_SoundEdgeIsOnePulse : (tick { State.reset with ST := 1#8 }).2 = true := by decide

theorem meets_KeySetWritesOneFlag : (3 : Fin 16) ≠ 4 ∧ ∃ t, step (loaded 0x6A12) = .next t := ⟨by decide, _, rfl⟩

/-- A halted engine; a Reset; and a Load, a Tick and a KeySet that change what they may. -/
theorem meets_OnlyResetLeavesTheHalt : haltedEngine.halted = true ∧ (HostOp.reset = .reset ∨ HostOp.reset = .powerOn) ∧
    (HostOp.tick ≠ .reset ∧ HostOp.tick ≠ .powerOn ∧ (tick haltedEngine).1.DT ≠ haltedEngine.DT) ∧
    (HostOp.load [0x12#8] ≠ .reset ∧ HostOp.load [0x12#8] ≠ .powerOn ∧ (load [0x12#8] haltedEngine).1.mem ≠ haltedEngine.mem) ∧
    (HostOp.keySet 3 true ≠ .reset ∧ HostOp.keySet 3 true ≠ .powerOn ∧ (keySet 3 true haltedEngine).key ≠ haltedEngine.key) :=
  ⟨rfl, .inl rfl, ⟨nofun, nofun, by decide⟩, ⟨nofun, nofun, by decide⟩, nofun, nofun, by decide⟩

theorem meets_TimersStayZeroFromReset :
    ∃ t replies, HostOp.run [.load [0x60#8, 0x05#8], .step 0x00#8, .tick, .readSoundActive] State.reset = .next (t, replies) := ⟨_, _, rfl⟩

theorem meets_BootFetchesTheFirstProgramWord : (List.replicate 3582 0x01#8).length ≤ 3582 := by rw [List.length_replicate]

theorem meets_ZeroedMemoryRunsAsNopsToItsEnd : (1792 : Nat) ≤ 1792 := by decide

theorem meets_OnlyRndReadsTheByteOfTheStep : (∃ t, step (loaded 0xC10F) = .next t) ∧
    ∀ (ins : Word) (x : Reg) (nn : Byte), (loaded 0x6A12).fetch = some ins → decodeWord ins ≠ .instr (.rnd x nn) :=
  ⟨⟨_, rfl⟩, fun ins x nn h => by
    have e : (loaded 0x6A12).fetch = some 0x6A12#16 := by decide
    obtain rfl := Option.some.inj (e.symm.trans h)
    exact nofun⟩

theorem meets_HostOperationsIgnoreTheRandomCounter :
    ∃ t replies, HostOp.run [.step 0xA7#8, .reset, .step 0x55#8] (loaded 0xC10F) = .next (t, replies) := ⟨_, _, rfl⟩

end Sys2Proof.Tests
end

/-! PROOF. Every operation of the host keeps the invariant (spec/10_state.md R23, R24, spec/20_memory.md R52): one rule per state
operation, then one per instruction, the Step's body, and the host's other operations. -/

namespace Sys2Proof

open Machine

/-! ## One rule per state operation -/

/-- The codes of spec/60_exceptions.md R160. -/
theorem Machine.FaultCause.code_bounds (c : FaultCause) : 1 ≤ c.code.toNat ∧ c.code.toNat ≤ 4 := by
  cases c <;> decide

/-- `pc + 2`, wrapped or not. -/
theorem toNat_add_two_le (w : Word) : (w + 2#16).toNat ≤ w.toNat + 2 := Nat.mod_le _ _

section
variable {s : State} (hi : Inv s)
include hi

/-- The invariant speaks of `mem`, `I`, `pc`, `stack` and FSR alone. -/
theorem Inv.congr {t : State} (mem : t.mem = s.mem) (I : t.I = s.I) (pc : t.pc = s.pc) (stack : t.stack = s.stack)
    (FSR : t.FSR = s.FSR) : Inv t := by
  obtain ⟨h1, h2, h3, h4, h5, h6, h7, h8, h9⟩ := hi
  constructor <;> simpa only [mem, I, pc, stack, FSR]

theorem Inv.writeV {x : Reg} {b : Byte} : Inv (s.writeV x b) := hi.congr rfl rfl rfl rfl rfl

theorem Inv.setDisp {d : Display} : Inv (s.setDisp d) := hi.congr rfl rfl rfl rfl rfl

theorem Inv.setSp {v : Fin 49} : Inv (s.setSp v) := hi.congr rfl rfl rfl rfl rfl

theorem Inv.setKey {v : Vector Bool 16} : Inv (s.setKey v) := hi.congr rfl rfl rfl rfl rfl

theorem Inv.setDT {b : Byte} : Inv (s.setDT b) := hi.congr rfl rfl rfl rfl rfl

theorem Inv.setST {b : Byte} : Inv (s.setST b) := hi.congr rfl rfl rfl rfl rfl

theorem Inv.setRndDraws {n : Nat} : Inv (s.setRndDraws n) := hi.congr rfl rfl rfl rfl rfl

theorem Inv.consumeRandom : Inv s.consumeRandom := hi.setRndDraws

theorem Inv.setI {v : Word} (hv : v.toNat ≤ 0x0FFF) : Inv (s.setI v) := { hi with I := hv }

theorem Inv.setStack {v : Vector Word 48} (hv : ∀ k : Fin 48, v[k].toNat ≤ 4096) : Inv (s.setStack v) := { hi with stack := hv }

/-- Only a running engine may move `pc`: a halted one has recorded it in FSR. -/
theorem Inv.setPc (hr : s.halted = false) {v : Word} (hv : v.toNat ≤ 0x10FE) : Inv (s.setPc v) :=
  have running : ¬ s.FSR.valid = true := Bool.eq_false_iff.1 hr
  { hi with
    pc := hv
    fsrPc := fun h => absurd h running
    fsrFetch := fun h => absurd h running }

/-- A fault that records no instruction is one of the fetch. -/
theorem Inv.takeFault {c : FaultCause} {ins : Option Word} (hf : ins = none → c = .memOob ∧ 4094 < s.pc.toNat) :
    Inv (s.takeFault c ins) :=
  { hi with
    fsrClear := nofun
    fsrCause := fun _ => c.code_bounds
    fsrPc := fun _ => rfl
    fsrFetch := fun _ h => by
      obtain rfl : ins = none := by simpa using h
      obtain ⟨rfl, hpc⟩ := hf rfl
      exact ⟨rfl, rfl, hpc⟩ }

theorem Inv.takeFault_some {c : FaultCause} {ins : Word} : Inv (s.takeFault c (some ins)) := hi.takeFault nofun

/-- A push of a return address that the invariant admits. -/
theorem Inv.push {t : State} {w : Word} (hw : w.toNat ≤ 4096) (h : s.push w = some t) : Inv t ∧ t.halted = s.halted := by
  obtain ⟨hlt, rfl⟩ := State.push_eq_some h
  have hstack : ∀ k : Fin 48, (s.stack.set s.sp.val w hlt)[k].toNat ≤ 4096 := by
    intro k
    rw [Fin.getElem_fin, Vector.getElem_set]
    split
    · exact hw
    · exact hi.stack k
  exact ⟨(hi.setStack hstack).setSp, rfl⟩

/-- A popped entry is a return address. -/
theorem Inv.pop {t : State} {w : Word} (h : s.pop = some (w, t)) : Inv t ∧ t.halted = s.halted ∧ w.toNat ≤ 4096 := by
  obtain ⟨hpos, rfl, rfl⟩ := State.pop_eq_some h
  exact ⟨hi.setSp, rfl, hi.stack ⟨s.sp.val - 1, by omega⟩⟩

/-- Load writes from 0x200 up, whether it is taken or refused. -/
theorem Inv.load (bytes : List Byte) : Inv (load bytes s).1 := by
  unfold Machine.load
  split
  · next hlen =>
    have hlen : bytes.length ≤ 3584 := of_decide_eq_true hlen
    exact { hi with
      mem := Memory.wf_writeBytes hi.mem _ bytes
      lowMem := fun a ha =>
        (Memory.read_writeBytes_outside hi.mem bytes (by omega) (.inl ha)).trans (hi.lowMem a ha) }
  · exact hi

/-- The state an outcome gives is the one it was built from. -/
theorem Inv.of_next {t : State} (h : (.next s : Host.Outcome State Fault Refusal) = .next t) : Inv t :=
  Host.Outcome.next.inj h ▸ hi

/-- The same for an operation, whose outcome carries a reply. -/
theorem Inv.of_next_reply {t : State} {r r' : Reply}
    (h : (.next (s, r) : Host.Outcome (State × Reply) Fault Refusal) = .next (t, r')) : Inv t :=
  (Prod.mk.inj (Host.Outcome.next.inj h)).1 ▸ hi

end

/-! ## The program counter of a running engine -/

/-- The address after a fetched instruction. -/
theorem toNat_advance_pc_le {s : State} (hpc : s.pc.toNat ≤ 4094) : s.advance.pc.toNat ≤ 4096 :=
  Nat.le_trans (toNat_add_two_le s.pc) (by omega)

section
variable {s : State} (hi : Inv s) (hr : s.halted = false)
include hi hr

theorem Inv.advance (hpc : s.pc.toNat ≤ 4094) : Inv s.advance :=
  hi.setPc hr (Nat.le_trans (toNat_advance_pc_le hpc) (by decide))

theorem Inv.skipIf (hpc : s.pc.toNat ≤ 4096) {c : Bool} : Inv (s.skipIf c) := by
  have := toNat_add_two_le s.pc
  cases c with
  | false => exact hi
  | true => exact hi.setPc hr (by omega)

/-- A 12-bit target keeps the bound of `pc`. -/
theorem Inv.setPc_zext16 {nnn : Imm12} : Inv (s.setPc (zext16 nnn)) :=
  hi.setPc hr (by rw [toNat_zext16]; omega)

/-- The largest `pc` that any rule writes is `0xFF + 0xFFF`. -/
theorem Inv.setPc_jumpV0Target {b : Byte} {nnn : Imm12} : Inv (s.setPc (jumpV0Target b nnn)) :=
  hi.setPc hr (by rw [toNat_jumpV0Target]; omega)

end

/-! ## The instructions, from a running state whose fetch succeeded -/

section
variable {s t : State} (hi : Inv s) (hr : s.halted = false) (hpc : s.pc.toNat ≤ 4094)
include hi hr hpc

/-- RET writes `pc` from the stack, whose entries the invariant bounds. -/
theorem Inv.execRet (h : execRet s = .next t) : Inv t := by
  unfold Machine.execRet at h
  split at h
  · exact hi.takeFault_some.of_next h
  · next w u hpop =>
    obtain ⟨hu, hur, hw⟩ := (hi.advance hr hpc).pop hpop
    exact (hu.setPc (hur.trans hr) (Nat.le_trans hw (by decide))).of_next h

/-- CALL pushes the address after the fetched instruction. -/
theorem Inv.execCall {nnn : Imm12} (h : execCall nnn s = .next t) : Inv t := by
  unfold Machine.execCall at h
  split at h
  · exact hi.takeFault_some.of_next h
  · next u hpush =>
    obtain ⟨hu, hur⟩ := (hi.advance hr hpc).push (toNat_advance_pc_le hpc) hpush
    exact (hu.setPc_zext16 (hur.trans hr)).of_next h

theorem Inv.execDrw {x y : Reg} {n : Fin 16} (h : execDrw x y n s = .next t) : Inv t := by
  unfold Machine.execDrw at h
  split at h
  · exact hi.takeFault_some.of_next h
  · exact (hi.advance hr hpc).setDisp.writeV.of_next h

theorem Inv.exec {i : Instr} (h : exec i s = .next t) : Inv t := by
  have ha : Inv s.advance := hi.advance hr hpc
  have hskip {c : Bool} : Inv (s.advance.skipIf c) := ha.skipIf hr (toNat_advance_pc_le hpc)
  cases i with
  | nop => exact ha.of_next h
  | cls => exact ha.setDisp.of_next h
  | ret => exact hi.execRet hr hpc h
  | call nnn => exact hi.execCall hr hpc h
  | jp nnn => exact (ha.setPc_zext16 hr).of_next h
  | jpV0 nnn => exact (ha.setPc_jumpV0Target hr).of_next h
  | seImm | sneImm | seReg | sneReg => exact hskip.of_next h
  | ldImm | addImm | ldReg | or | and | xor => exact ha.writeV.of_next h
  | addReg | sub | shr | subn | shl => exact ha.writeV.writeV.of_next h
  | ldI nnn => exact (ha.setI (by rw [toNat_zext16]; omega)).of_next h
  | rnd x nn => exact (hi.consumeRandom.advance hr hpc).writeV.of_next h
  | drw x y n => exact hi.execDrw hr hpc h

theorem Inv.execWith {r : Byte} {i : Instr} (h : execWith r i s = .next t) : Inv t := by
  unfold Machine.execWith at h
  split at h
  · exact (hi.advance hr hpc).writeV.of_next h
  · exact hi.exec hr hpc h

end

/-! ## The Step, and every operation -/

/-- A Step keeps the invariant when the meanings it runs do. -/
theorem Inv.stepBy {run : Instr → State → Host.Outcome State Fault Refusal} {s t : State} (hi : Inv s)
    (hrun : ∀ i, s.halted = false → s.pc.toNat ≤ 4094 → run i s = .next t → Inv t) (h : stepBy run s = .next t) : Inv t := by
  rcases stepBy_cases h with ⟨-, rfl⟩ | ⟨-, hf, rfl⟩ | ⟨ins, -, -, -, rfl⟩ | ⟨ins, i, hr, hf, -, hx⟩
  · exact hi
  · exact hi.takeFault fun _ => ⟨rfl, s.fetch_eq_none_iff.1 hf⟩
  · exact hi.takeFault_some
  · have hpc : ¬ 4094 < s.pc.toNat := fun hgt => by simp [s.fetch_of_gt hgt] at hf
    exact hrun i hr (Nat.le_of_not_lt hpc) hx

theorem Inv.hostStep {r : Byte} {s t : State} {reply : Reply} (hi : Inv s) (h : hostStep r s = .next (t, reply)) : Inv t := by
  unfold Machine.hostStep at h
  split at h
  · next u hstep =>
    obtain ⟨rfl, -⟩ := Prod.mk.inj (Host.Outcome.next.inj h)
    exact hi.stepBy (fun i hr hpc => hi.execWith hr hpc) hstep
  · cases h
  · cases h

/-- Settles O21, by cases on the operation. -/
theorem everyHostOperationKeepsTheInvariant : Obligations.EveryHostOperationKeepsTheInvariant := by
  intro op s t r hi h
  cases op with
  | powerOn | reset => exact Tests.reset_inv.setRndDraws.of_next_reply h
  | load bytes => exact (hi.load bytes).of_next_reply h
  | step r => exact hi.hostStep h
  | tick => exact hi.setDT.setST.of_next_reply h
  | keySet k b => exact hi.setKey.of_next_reply h
  | readDisplay | readSoundActive => exact hi.of_next_reply h

end Sys2Proof

/-! PROOF. The machine state: the invariant (spec/10_state.md 10), who writes which element (spec/10_state.md R21 to R31), and the
counter of random bytes, which no operation of the host reads or changes (spec/10_state.md R20). -/

namespace Sys2Proof

open Machine

/-! ## The invariant -/

/-- Settles O20: a Step runs `exec`, and every instruction keeps the invariant. -/
theorem everyStepKeepsTheInvariant : Obligations.EveryStepKeepsTheInvariant :=
  fun _ _ hi h => hi.stepBy (fun _ hr hpc hx => hi.exec hr hpc hx) h

/-- Settles O19. -/
theorem resetMeetsTheInvariant : Obligations.ResetMeetsTheInvariant := Tests.reset_inv

end Sys2Proof

namespace Sys2Proof.Machine

/-! ## The three instructions that may fault: one equation per way they end -/

section
variable {s t : State}

theorem execRet_of_empty (h : s.sp.val = 0) :
    execRet s = .next (s.takeFault .stackUnderflow (some (encode .ret))) := by
  have hpop : s.advance.pop = none := s.advance.pop_eq_none_iff.2 h
  simp [execRet, hpop]

theorem execRet_of_pos (h : 0 < s.sp.val) :
    execRet s = .next ((s.advance.setSp ⟨s.sp.val - 1, by omega⟩).setPc (s.stack[s.sp.val - 1]'(by omega))) := by
  simp [execRet, s.advance.pop_of_pos h]

theorem execCall_of_full {nnn : Imm12} (h : s.sp.val = 48) :
    execCall nnn s = .next (s.takeFault .stackOverflow (some (encode (.call nnn)))) := by
  have hpush : s.advance.push s.advance.pc = none := (s.advance.push_eq_none_iff _).2 h
  simp only [execCall, hpush]

theorem execCall_of_lt {nnn : Imm12} (h : s.sp.val < 48) :
    execCall nnn s = .next (((s.advance.setStack (s.stack.set s.sp.val (s.pc + 2#16) h)).setSp
      ⟨s.sp.val + 1, Nat.succ_lt_succ h⟩).setPc (zext16 nnn)) := by
  simp [execCall, s.advance.push_of_lt _ h]

theorem execDrw_of_none {x y : Reg} {n : Fin 16} (h : memRead s.mem s.I.toNat n.val = none) :
    execDrw x y n s = .next (s.takeFault .memOob (some (encode (.drw x y n)))) := by
  simp only [execDrw, h]

theorem execDrw_of_some {x y : Reg} {n : Fin 16} {sprite : List Byte}
    (h : memRead s.mem s.I.toNat n.val = some sprite) :
    execDrw x y n s = .next ((s.advance.setDisp (drawSprite (s.readV x) (s.readV y) sprite s.disp).1).writeV VF
      (flagByte (drawSprite (s.readV x) (s.readV y) sprite s.disp).2)) := by
  simp only [execDrw, h]

/-- Everything a RET can do. -/
theorem execRet_cases (h : execRet s = .next t) :
    (s.sp.val = 0 ∧ t = s.takeFault .stackUnderflow (some (encode .ret))) ∨
    ∃ _ : 0 < s.sp.val,
      t = (s.advance.setSp ⟨s.sp.val - 1, by omega⟩).setPc (s.stack[s.sp.val - 1]'(by omega)) := by
  rcases Nat.eq_zero_or_pos s.sp.val with h0 | h0
  · exact .inl ⟨h0, Host.Outcome.next.inj (h.symm.trans (execRet_of_empty h0))⟩
  · exact .inr ⟨h0, Host.Outcome.next.inj (h.symm.trans (execRet_of_pos h0))⟩

/-- Everything a CALL can do. -/
theorem execCall_cases {nnn : Imm12} (h : execCall nnn s = .next t) :
    (s.sp.val = 48 ∧ t = s.takeFault .stackOverflow (some (encode (.call nnn)))) ∨
    ∃ hlt : s.sp.val < 48, t = ((s.advance.setStack (s.stack.set s.sp.val (s.pc + 2#16) hlt)).setSp
      ⟨s.sp.val + 1, Nat.succ_lt_succ hlt⟩).setPc (zext16 nnn) := by
  rcases Nat.lt_or_ge s.sp.val 48 with hlt | hge
  · exact .inr ⟨hlt, Host.Outcome.next.inj (h.symm.trans (execCall_of_lt hlt))⟩
  · have hfull : s.sp.val = 48 := by omega
    exact .inl ⟨hfull, Host.Outcome.next.inj (h.symm.trans (execCall_of_full hfull))⟩

/-- Everything a DRW can do. -/
theorem execDrw_cases {x y : Reg} {n : Fin 16} (h : execDrw x y n s = .next t) :
    (memRead s.mem s.I.toNat n.val = none ∧ t = s.takeFault .memOob (some (encode (.drw x y n)))) ∨
    ∃ sprite, memRead s.mem s.I.toNat n.val = some sprite ∧
      t = (s.advance.setDisp (drawSprite (s.readV x) (s.readV y) sprite s.disp).1).writeV VF
        (flagByte (drawSprite (s.readV x) (s.readV y) sprite s.disp).2) := by
  cases hm : memRead s.mem s.I.toNat n.val with
  | none => exact .inl ⟨rfl, Host.Outcome.next.inj (h.symm.trans (execDrw_of_none hm))⟩
  | some sprite => exact .inr ⟨sprite, rfl, Host.Outcome.next.inj (h.symm.trans (execDrw_of_some hm))⟩

end

/-! ## Registers an instruction does not list -/

section
variable {s : State} {x y k : Reg} {a b : Byte}

theorem State.readV_writeV_of_notMem (hk : k ∉ [x]) : (s.writeV x a).readV k = s.readV k :=
  s.readV_writeV_other a (List.ne_of_not_mem_cons hk)

theorem State.readV_writeV_writeV_of_notMem (hk : k ∉ [x, y]) :
    ((s.writeV x a).writeV y b).readV k = s.readV k := by
  rw [readV_writeV_of_notMem (List.not_mem_of_not_mem_cons hk), readV_writeV_other _ _ (List.ne_of_not_mem_cons hk)]

end

end Sys2Proof.Machine

namespace Sys2Proof

open Machine

/-- Settles O16, by cases on the instruction: RET, CALL and DRW by what each can do, every other one by its single next state. -/
theorem eachElementHasOnlyItsNamedWriters : Obligations.EachElementHasOnlyItsNamedWriters := by
  intro i s t h
  cases i with
  | ret => rcases execRet_cases h with ⟨-, rfl⟩ | ⟨-, rfl⟩ <;> simp [Instr.mnemonic]
  | call nnn => rcases execCall_cases h with ⟨-, rfl⟩ | ⟨-, rfl⟩ <;> simp [Instr.mnemonic]
  | drw x y n => rcases execDrw_cases h with ⟨-, rfl⟩ | ⟨-, -, rfl⟩ <;> simp [Instr.mnemonic]
  | nop | cls | jp | seImm | sneImm | seReg | sneReg | ldImm | addImm | ldReg | or | and | xor | addReg | sub | subn | ldI
  | jpV0 =>
    obtain rfl := Host.Outcome.next.inj h
    simp [Instr.mnemonic]
  | shr =>
    obtain rfl := Host.Outcome.next.inj h
    simp [Instr.mnemonic, shrInPlace]
  | shl =>
    obtain rfl := Host.Outcome.next.inj h
    simp [Instr.mnemonic, shlInPlace]
  | rnd =>
    obtain rfl := Host.Outcome.next.inj h
    simp [Instr.mnemonic, rndWith]

/-- Settles O17, by cases on the instruction, in the groups of the write table: no register, one, or a result and VF. -/
theorem registersOutsideTheTableAreKept : Obligations.RegistersOutsideTheTableAreKept := by
  intro i s t k h hk
  cases i with
  | ret => rcases execRet_cases h with ⟨-, rfl⟩ | ⟨-, rfl⟩ <;> rfl
  | call nnn => rcases execCall_cases h with ⟨-, rfl⟩ | ⟨-, rfl⟩ <;> rfl
  | drw x y n =>
    rcases execDrw_cases h with ⟨-, rfl⟩ | ⟨-, -, rfl⟩
    · rfl
    · exact State.readV_writeV_of_notMem hk
  | nop | cls | jp | ldI | jpV0 =>
    obtain rfl := Host.Outcome.next.inj h
    rfl
  | seImm | sneImm | seReg | sneReg =>
    obtain rfl := Host.Outcome.next.inj h
    exact State.readV_skipIf ..
  | ldImm | addImm | ldReg | or | and | xor | rnd =>
    obtain rfl := Host.Outcome.next.inj h
    exact State.readV_writeV_of_notMem hk
  | addReg | sub | shr | subn | shl =>
    obtain rfl := Host.Outcome.next.inj h
    exact State.readV_writeV_writeV_of_notMem hk

end Sys2Proof

namespace Sys2Proof.Machine

/-! ## Every operation answers a next state -/

theorem exec_total (i : Instr) (s : State) : ∃ t, exec i s = .next t := by
  cases i with
  | ret =>
    rcases Nat.eq_zero_or_pos s.sp.val with h0 | h0
    · exact ⟨_, execRet_of_empty h0⟩
    · exact ⟨_, execRet_of_pos h0⟩
  | call nnn =>
    rcases Nat.lt_or_ge s.sp.val 48 with hlt | hge
    · exact ⟨_, execCall_of_lt hlt⟩
    · exact ⟨_, execCall_of_full (by omega)⟩
  | drw x y n =>
    cases hm : memRead s.mem s.I.toNat n.val with
    | none => exact ⟨_, execDrw_of_none hm⟩
    | some sprite => exact ⟨_, execDrw_of_some hm⟩
  | _ => exact ⟨_, rfl⟩

theorem execWith_total (r : Byte) (i : Instr) (s : State) : ∃ t, execWith r i s = .next t := by
  unfold execWith
  split
  · exact ⟨_, rfl⟩
  · exact exec_total _ s

/-- A Step answers a next state when the meaning it runs does. -/
theorem stepBy_total {run : Instr → State → Host.Outcome State Fault Refusal} {s : State}
    (hrun : ∀ i, ∃ t, run i s = .next t) : ∃ t, stepBy run s = .next t := by
  unfold stepBy
  split
  · exact ⟨_, rfl⟩
  · split
    · exact ⟨_, rfl⟩
    · split
      · exact hrun _
      · exact ⟨_, rfl⟩
      · exact ⟨_, rfl⟩

theorem stepWith_total (r : Byte) (s : State) : ∃ t, stepWith r s = .next t :=
  stepBy_total fun i => execWith_total r i s

theorem HostOp.apply_total (op : HostOp) (s : State) : ∃ t reply, op.apply s = .next (t, reply) := by
  cases op with
  | step r =>
    obtain ⟨t, ht⟩ := stepWith_total r s
    exact ⟨t, _, hostStep_of_next ht⟩
  | _ => exact ⟨_, _, rfl⟩

/-! ## The counter stands beside the machine: a meaning run at another counter answers the same machine state at that counter -/

section
variable {s t : State} (n : Nat)

theorem exec_setRndDraws {i : Instr} (hi : i.mnemonic ≠ .RND) (h : exec i s = .next t) :
    exec i (s.setRndDraws n) = .next (t.setRndDraws n) := by
  cases i with
  | rnd => exact absurd rfl hi
  | ret =>
    rcases execRet_cases h with ⟨h0, rfl⟩ | ⟨h0, rfl⟩
    · exact execRet_of_empty h0
    · exact execRet_of_pos (s := s.setRndDraws n) h0
  | call nnn =>
    rcases execCall_cases h with ⟨hfull, rfl⟩ | ⟨hlt, rfl⟩
    · exact execCall_of_full hfull
    · exact execCall_of_lt (s := s.setRndDraws n) hlt
  | drw x y k =>
    rcases execDrw_cases h with ⟨hm, rfl⟩ | ⟨sprite, hm, rfl⟩
    · exact execDrw_of_none hm
    · exact execDrw_of_some hm
  | seImm | sneImm | seReg | sneReg =>
    obtain rfl := Host.Outcome.next.inj h
    exact congrArg Host.Outcome.next (s.advance.skipIf_setRndDraws n _)
  | _ =>
    obtain rfl := Host.Outcome.next.inj h
    rfl

theorem execWith_setRndDraws {r : Byte} {i : Instr} (h : execWith r i s = .next t) :
    execWith r i (s.setRndDraws n) = .next (t.setRndDraws n) := by
  by_cases hi : i.mnemonic = .RND
  · cases i with
    | rnd x nn =>
      obtain rfl := Host.Outcome.next.inj h
      rfl
    | _ => cases hi
  · rw [execWith_of_ne_rnd r hi] at h ⊢
    exact exec_setRndDraws n hi h

theorem stepWith_setRndDraws {r : Byte} (h : stepWith r s = .next t) :
    stepWith r (s.setRndDraws n) = .next (t.setRndDraws n) := by
  rcases stepBy_cases h with ⟨hh, rfl⟩ | ⟨hh, hf, rfl⟩ | ⟨ins, hh, hf, hd, rfl⟩ | ⟨ins, i, hh, hf, hd, hx⟩
  · exact stepBy_halted _ hh
  · exact stepBy_fetchFault _ hh hf
  · exact stepBy_unsupported _ hh hf hd
  · exact (stepBy_instr (execWith r) (s := s.setRndDraws n) hh hf hd).trans (execWith_setRndDraws n hx)

theorem load_setRndDraws (bytes : List Byte) (s : State) :
    load bytes (s.setRndDraws n) = ((load bytes s).1.setRndDraws n, (load bytes s).2) := by
  unfold load
  split <;> rfl

theorem HostOp.apply_setRndDraws {op : HostOp} {reply : Reply} (h : op.apply s = .next (t, reply)) :
    op.apply (s.setRndDraws n) = .next (t.setRndDraws n, reply) := by
  cases op with
  | step r =>
    obtain ⟨u, hu⟩ := stepWith_total r s
    cases (hostStep_of_next hu).symm.trans h
    exact hostStep_of_next (stepWith_setRndDraws n hu)
  | load bytes =>
    cases h
    simp [HostOp.apply, load_setRndDraws]
  | _ =>
    cases h
    rfl

/-- A run of one operation more is that operation and then the run from where it led. -/
theorem HostOp.run_cons_iff {op : HostOp} {ops : List HostOp} {replies : List Reply} :
    HostOp.run (op :: ops) s = .next (t, replies) ↔
      ∃ u r rs, op.apply s = .next (u, r) ∧ HostOp.run ops u = .next (t, rs) ∧ replies = r :: rs := by
  obtain ⟨u, r, hu⟩ := op.apply_total s
  cases hrun : HostOp.run ops u with
  | next p =>
    obtain ⟨v, rs⟩ := p
    simp [HostOp.run, hu, hrun, and_assoc, eq_comm (a := replies)]
  | fault e | refused e => simp [HostOp.run, hu, hrun]

theorem HostOp.run_setRndDraws {ops : List HostOp} {replies : List Reply} (h : HostOp.run ops s = .next (t, replies)) :
    HostOp.run ops (s.setRndDraws n) = .next (t.setRndDraws n, replies) := by
  induction ops generalizing s replies with
  | nil =>
    cases h
    rfl
  | cons op ops ih =>
    obtain ⟨u, r, rs, hop, hops, rfl⟩ := HostOp.run_cons_iff.1 h
    exact HostOp.run_cons_iff.2 ⟨_, r, rs, HostOp.apply_setRndDraws n hop, ih hops, rfl⟩

end

/-- What answers the same at every counter, beside that counter, has kept the one it was given. -/
theorem rndDraws_eq_of_setRndDraws {α : Type} {f : State → Host.Outcome (State × α) Fault Refusal} {s t : State} {a : α}
    (h : f s = .next (t, a)) (hf : ∀ n, f (s.setRndDraws n) = .next (t.setRndDraws n, a)) : t.rndDraws = s.rndDraws :=
  congrArg (·.1.rndDraws) (Host.Outcome.next.inj (h.symm.trans (hf s.rndDraws)))

end Sys2Proof.Machine

namespace Sys2Proof

open Machine

/-- Settles O60: runs and operations commute with a change of the counter, so they keep it; on the machine state alone an
operation runs at counter 0. -/
theorem hostOperationsIgnoreTheRandomCounter : Obligations.HostOperationsIgnoreTheRandomCounter := by
  constructor
  · intro ops s t replies n h
    exact ⟨rndDraws_eq_of_setRndDraws h fun k => HostOp.run_setRndDraws k h, HostOp.run_setRndDraws n h⟩
  · intro op s
    obtain ⟨t, r, h⟩ := op.apply_total s
    have hkept : t.rndDraws = s.rndDraws := rndDraws_eq_of_setRndDraws h fun k => HostOp.apply_setRndDraws k h
    have halone : MachineState.apply op s.toMachineState = .next (t.toMachineState, r) :=
      MachineState.apply_of_next (t := t.setRndDraws 0) (HostOp.apply_setRndDraws 0 h)
    exact ⟨t.toMachineState, r, halone, by rw [h, ← hkept]⟩

end Sys2Proof

/-! PROOF. Memory: MemRead's check of the whole access and the order of its bytes (spec/20_memory.md R57), the fetch's byte order and
bound (R53, R58), and the sprite that DRW reads and draws (R54, R59, spec/43_display.md R152). -/

namespace Sys2Proof.Machine

/-! ## Bytes read -/

/-- Big-endian: the byte at the lower address weighs 256. -/
theorem toNat_wordOfBytes (hi lo : Byte) : (wordOfBytes hi lo).toNat = hi.toNat * 256 + lo.toNat := by
  rw [wordOfBytes, BitVec.toNat_append, Nat.shiftLeft_eq, Nat.mul_comm, ← Nat.two_pow_add_eq_or_of_lt lo.isLt]

theorem Memory.getElem?_readBytes_eq_some_iff {m : Memory} {a n k : Nat} {b : Byte} :
    (m.readBytes a n)[k]? = some b ↔ k < n ∧ m.read (a + k) = b := by
  rcases Nat.lt_or_ge k n with hk | hk
  · rw [m.getElem?_readBytes a n k hk]
    simp [hk]
  · simp [hk]

/-! ## The sprite in memory -/

/-- The pixels a row covers, in the integers of spec/43_display.md R152. -/
theorem rowCovers_iff {px py b : Byte} {row : Nat} {cx : Fin 64} {cy : Fin 32} :
    RowCovers px py row b [0, 1, 2, 3, 4, 5, 6, 7] cx cy ↔
      ∃ col < 8, b.getLsbD (7 - col) = true ∧ cx.val = (px.toNat + col) % 64 ∧ cy.val = (py.toNat + row) % 32 := by
  have hcols (col : Nat) : col ∈ [0, 1, 2, 3, 4, 5, 6, 7] ↔ col < 8 := List.mem_range (n := 8)
  simp only [RowCovers, hcols, spriteBit, pixelColumn, pixelRow, Fin.ext_iff, eq_comm]

/-- The pixels a DRW is to flip are those that the bytes it reads cover. -/
theorem spriteCovers_iff {s : State} {x y : Reg} {n : Fin 16} {cx : Fin 64} {cy : Fin 32} :
    SpriteCovers s x y n cx cy ↔
      RowsCover (s.readV x) (s.readV y) 0 (s.mem.readBytes s.I.toNat n.val) cx cy := by
  simp only [RowsCover, Memory.getElem?_readBytes_eq_some_iff, rowCovers_iff, Nat.zero_add]
  constructor
  · rintro ⟨row, col, hrow, hcol, hbit, hx, hy⟩
    exact ⟨row, _, ⟨hrow, rfl⟩, col, hcol, hbit, hx, hy⟩
  · rintro ⟨row, _, ⟨hrow, rfl⟩, col, hcol, hbit, hx, hy⟩
    exact ⟨row, col, hrow, hcol, hbit, hx, hy⟩

/-! ## A DRW whose sprite lies in memory -/

/-- The display and the collision that a DRW computes. -/
def drawn (x y : Reg) (n : Fin 16) (s : State) : Display × Bool :=
  drawSprite (s.readV x) (s.readV y) (s.mem.readBytes s.I.toNat n.val) s.disp

section
variable (x y : Reg) (n : Fin 16) (s : State)

theorem execDrw_of_fits (h : n.val = 0 ∨ s.I.toNat + n.val ≤ 4096) :
    execDrw x y n s = .next ((s.advance.setDisp (drawn x y n s).1).writeV VF (flagByte (drawn x y n s).2)) :=
  execDrw_of_some (memRead_of_fits s.mem s.I.toNat n.val h)

/-- A sprite is shorter than the 32 rows after which it would wrap onto its first. -/
theorem length_sprite_le : (s.mem.readBytes s.I.toNat n.val).length ≤ 32 := by
  rw [Memory.length_readBytes]
  omega

theorem drawn_flips_iff (cx : Fin 64) (cy : Fin 32) :
    pixelAt (drawn x y n s).1 cx cy ≠ pixelAt s.disp cx cy ↔ SpriteCovers s x y n cx cy :=
  ((drawRows_spec _ _ 0 _ (length_sprite_le n s) (s.disp, false)).1 cx cy).trans spriteCovers_iff.symm

theorem drawn_hit_iff :
    (drawn x y n s).2 = true ↔ ∃ cx cy, SpriteCovers s x y n cx cy ∧ pixelAt s.disp cx cy = true :=
  (drawRows_spec _ _ 0 _ (length_sprite_le n s) (s.disp, false)).2.trans (by simp [spriteCovers_iff])

end

end Sys2Proof.Machine

namespace Sys2Proof

open Machine

/-- Settles O7. -/
theorem memReadChecksTheWholeAccess : Obligations.MemReadChecksTheWholeAccess := by
  intro m addr n
  refine ⟨?_, fun hpos hle => ?_, fun hpos hgt => (memRead_eq_none_iff m addr n).2 ⟨hpos, hgt⟩⟩
  · rintro rfl
    exact memRead_of_fits m addr 0 (.inl rfl)
  · exact ⟨m.readBytes addr n, memRead_of_fits m addr n (.inr (by omega)), m.length_readBytes addr n,
      m.getElem?_readBytes addr n⟩

/-- Settles O8. -/
theorem fetchIsBigEndianAndBounded : Obligations.FetchIsBigEndianAndBounded :=
  fun s => ⟨fun h => ⟨_, s.fetch_of_le h, toNat_wordOfBytes _ _⟩, s.fetch_of_gt⟩

/-- The display and VF are all that a drawing writes beside `pc`. -/
theorem onlyDisplayAndRegs_draw (s : State) (d : Display) (b : Byte) :
    OnlyDisplayAndRegs [15] s ((s.advance.setDisp d).writeV VF b) where
  mem _ := rfl
  DT := rfl
  ST := rfl
  key := rfl
  FSR := rfl
  regs _ hk := State.readV_writeV_of_notMem hk
  I := rfl
  stack := rfl
  sp := rfl
  rndDraws := rfl

/-- Settles O46: the display by `drawn_flips_iff`, VF by whether the drawing hit a set pixel. -/
theorem drawFlipsExactlyTheCoveredPixels : Obligations.DrawFlipsExactlyTheCoveredPixels := by
  intro x y n s hfits
  refine ⟨_, execDrw_of_fits x y n s hfits, rfl, onlyDisplayAndRegs_draw s _ _, drawn_flips_iff x y n s, ?_⟩
  have hVF := (s.advance.setDisp (drawn x y n s).1).readV_writeV_same VF (flagByte (drawn x y n s).2)
  have hhit := drawn_hit_iff x y n s
  cases hd : (drawn x y n s).2 with
  | true =>
    rw [hd] at hVF hhit
    exact .inl ⟨hVF, hhit.1 rfl⟩
  | false =>
    rw [hd] at hVF hhit
    exact .inr ⟨hVF, fun cx cy hcov => Bool.eq_false_iff.2 fun hset => nomatch hhit.2 ⟨cx, cy, hcov, hset⟩⟩

end Sys2Proof

/-! PROOF. Encoding and decoding (spec/30_encoding.md R70 to R77): the decoder and the encoder undo each other, the decoder follows
the rows' masks and match values, and the words it rejects. -/

namespace Sys2Proof

/-! ## Words rebuilt from their fields -/

section
variable {w : Word} {op : BitVec 4} (hop : (fieldOp w).val = op.toNat)
include hop

/-- Format XYN. -/
theorem encodeXYN_fields {n : Fin 16} (hn : (fieldN w).val = n.val) : encodeXYN op (fieldX w) (fieldY w) n = w := by
  obtain rfl : BitVec.ofFin (fieldOp w) = op := BitVec.eq_of_toNat_eq hop
  obtain rfl : fieldN w = n := Fin.ext hn
  exact (word_eq_append w).symm

/-- Format XNN: its last two nibbles are the byte `nn`. -/
theorem encodeXNN_fields : encodeXNN op (fieldX w) (fieldNN w) = w := by
  have h : w.extractLsb' 4 4 ++ w.extractLsb' 0 4 = fieldNN w :=
    BitVec.extractLsb'_append_extractLsb'_eq_extractLsb' rfl
  rw [encodeXNN, ← h]
  exact encodeXYN_fields hop rfl

/-- Format NNN. -/
theorem encodeNNN_fields : encodeNNN op (fieldNNN w) = w := by
  obtain rfl : BitVec.ofFin (fieldOp w) = op := BitVec.eq_of_toNat_eq hop
  have h : w.extractLsb' 12 4 ++ w.extractLsb' 0 12 = w.extractLsb' 0 16 :=
    BitVec.extractLsb'_append_extractLsb'_eq_extractLsb' rfl
  exact h.trans BitVec.extractLsb'_eq_self

end

/-! ## The decoder after the encoder -/

@[simp] theorem decodeWord_encode (i : Instr) : decodeWord (encode i) = .instr i := by
  cases i with
  | nop | cls | ret => rfl
  | jp | call | ldI | jpV0 => simp [encode, decodeWord, fieldOp_encodeNNN, fieldNNN_encodeNNN]
  | seImm | sneImm | ldImm | addImm | rnd =>
    simp [encode, decodeWord, fieldOp_encodeXNN, fieldX_encodeXNN, fieldNN_encodeXNN]
  | seReg | sneReg | drw =>
    simp [encode, decodeWord, fieldOp_encodeXYN, fieldX_encodeXYN, fieldY_encodeXYN, fieldN_encodeXYN]
  | ldReg | or | and | xor | addReg | sub | shr | subn | shl =>
    simp [encode, decodeWord, decodeFamily8, fieldOp_encodeXYN, fieldX_encodeXYN, fieldY_encodeXYN, fieldN_encodeXYN]

/-- Settles O1: on bytes, since a word is its two bytes. -/
theorem decodeOfEncodeIsTheInstruction : Obligations.DecodeOfEncodeIsTheInstruction := by
  intro i rest
  refine ⟨decodeWord_encode i, ?_⟩
  calc decode (encodeBytes i ++ rest)
      _ = (decodeWord (wordOfBytes (highByte (encode i)) (lowByte (encode i))), rest) := rfl
      _ = (.instr i, rest) := by rw [wordOfBytes_bytes, decodeWord_encode]

/-! ## The encoder after the decoder -/

/-- What decoding `w` may answer: an instruction that `w` encodes, or that `w` is unsupported. -/
def Decoded.IsFor (w : Word) : Decoded → Prop
  | .instr i => encode i = w
  | .unsupported w' => w' = w
  | .truncated => False

theorem decodeFamily0_isFor (w : Word) : (decodeFamily0 w).IsFor w := by
  unfold decodeFamily0
  split_ifs with nop cls ret
  · exact nop.symm
  · exact cls.symm
  · exact ret.symm
  · rfl

theorem decodeFamily8_isFor {w : Word} (hop : (fieldOp w).val = 8) : (decodeFamily8 w).IsFor w := by
  unfold decodeFamily8
  split
  case h_10 => rfl
  all_goals next hn => exact encodeXYN_fields hop hn

theorem decodeWord_isFor (w : Word) : (decodeWord w).IsFor w := by
  unfold decodeWord
  split
  case h_1 => exact decodeFamily0_isFor w
  case h_6 hop | h_10 hop =>
    split_ifs with hn
    · exact encodeXYN_fields hop hn
    · rfl
  case h_9 hop => exact decodeFamily8_isFor hop
  case h_14 hop => exact encodeXYN_fields hop rfl
  case h_2 hop | h_3 hop | h_11 hop | h_12 hop => exact encodeNNN_fields hop
  case h_4 hop | h_5 hop | h_7 hop | h_8 hop | h_13 hop => exact encodeXNN_fields hop
  case h_15 => rfl

/-- The words that decode to `i` are the one that encodes it. -/
theorem decodeWord_eq_instr_iff {w : Word} {i : Instr} : decodeWord w = .instr i ↔ encode i = w := by
  constructor
  · intro h
    have hw := decodeWord_isFor w
    rwa [h] at hw
  · rintro rfl
    exact decodeWord_encode i

/-- Settles O2. -/
theorem encodeOfDecodeIsTheWord : Obligations.EncodeOfDecodeIsTheWord := fun _ _ => decodeWord_eq_instr_iff.1

/-- The decoder is total: what it does not decode it calls unsupported. -/
theorem decodeWord_eq_unsupported_iff {w : Word} : decodeWord w = .unsupported w ↔ ∀ i, decodeWord w ≠ .instr i := by
  have hw := decodeWord_isFor w
  cases hd : decodeWord w with
  | instr i => simp
  | unsupported w' =>
    rw [hd] at hw
    obtain rfl : w' = w := hw
    simp
  | truncated => exact absurd hd (decodeWord_ne_truncated w)

/-! ## The rows of the opcode map -/

/-- The family that a row with mask F000 selects. -/
theorem fieldOp_of_mask {w : Word} (op : BitVec 4) (h : w &&& 0xF000#16 = (op ++ 0#4) ++ (0#4 ++ 0#4)) :
    (fieldOp w).val = op.toNat :=
  congrArg Fin.val ((mask_F000_iff w op).1 h)

/-- A row with mask F00F leaves `x` and `y` free. -/
theorem encodeXYN_of_mask {w : Word} (op n : BitVec 4) (h : w &&& 0xF00F#16 = (op ++ 0#4) ++ (0#4 ++ n)) :
    encodeXYN op (fieldX w) (fieldY w) n.toFin = w :=
  have ⟨hop, hn⟩ := (mask_F00F_iff w op n).1 h
  encodeXYN_fields (congrArg Fin.val hop) (congrArg Fin.val hn)

/-- A row selects no word but the encodings of its instructions: its `mask` and `match` leave just the operands free. -/
theorem exists_encode_of_selects {w : Word} : ∀ {m : Mnemonic}, m.selects w → ∃ i : Instr, encode i = w ∧ i.mnemonic = m
  | .NOP, h => ⟨.nop, ((mask_FFFF_iff w _).1 h).symm, rfl⟩
  | .CLS, h => ⟨.cls, ((mask_FFFF_iff w _).1 h).symm, rfl⟩
  | .RET, h => ⟨.ret, ((mask_FFFF_iff w _).1 h).symm, rfl⟩
  | .JP, h => ⟨.jp _, encodeNNN_fields (fieldOp_of_mask 0x1#4 h), rfl⟩
  | .CALL, h => ⟨.call _, encodeNNN_fields (fieldOp_of_mask 0x2#4 h), rfl⟩
  | .SE_imm, h => ⟨.seImm _ _, encodeXNN_fields (fieldOp_of_mask 0x3#4 h), rfl⟩
  | .SNE_imm, h => ⟨.sneImm _ _, encodeXNN_fields (fieldOp_of_mask 0x4#4 h), rfl⟩
  | .SE_reg, h => ⟨.seReg _ _, encodeXYN_of_mask 0x5#4 0x0#4 h, rfl⟩
  | .LD_imm, h => ⟨.ldImm _ _, encodeXNN_fields (fieldOp_of_mask 0x6#4 h), rfl⟩
  | .ADD_imm, h => ⟨.addImm _ _, encodeXNN_fields (fieldOp_of_mask 0x7#4 h), rfl⟩
  | .LD_reg, h => ⟨.ldReg _ _, encodeXYN_of_mask 0x8#4 0x0#4 h, rfl⟩
  | .OR, h => ⟨.or _ _, encodeXYN_of_mask 0x8#4 0x1#4 h, rfl⟩
  | .AND, h => ⟨.and _ _, encodeXYN_of_mask 0x8#4 0x2#4 h, rfl⟩
  | .XOR, h => ⟨.xor _ _, encodeXYN_of_mask 0x8#4 0x3#4 h, rfl⟩
  | .ADD_reg, h => ⟨.addReg _ _, encodeXYN_of_mask 0x8#4 0x4#4 h, rfl⟩
  | .SUB, h => ⟨.sub _ _, encodeXYN_of_mask 0x8#4 0x5#4 h, rfl⟩
  | .SHR, h => ⟨.shr _ _, encodeXYN_of_mask 0x8#4 0x6#4 h, rfl⟩
  | .SUBN, h => ⟨.subn _ _, encodeXYN_of_mask 0x8#4 0x7#4 h, rfl⟩
  | .SHL, h => ⟨.shl _ _, encodeXYN_of_mask 0x8#4 0xE#4 h, rfl⟩
  | .SNE_reg, h => ⟨.sneReg _ _, encodeXYN_of_mask 0x9#4 0x0#4 h, rfl⟩
  | .LD_I, h => ⟨.ldI _, encodeNNN_fields (fieldOp_of_mask 0xA#4 h), rfl⟩
  | .JP_V0, h => ⟨.jpV0 _, encodeNNN_fields (fieldOp_of_mask 0xB#4 h), rfl⟩
  | .RND, h => ⟨.rnd _ _, encodeXNN_fields (fieldOp_of_mask 0xC#4 h), rfl⟩
  | .DRW, h => ⟨.drw _ _ _, encodeXYN_fields (fieldOp_of_mask 0xD#4 h) rfl, rfl⟩

end Sys2Proof

namespace Sys2Proof.Laws.RowSelects

/-- The rows' lemmas together. -/
theorem statement_holds : ∀ i : Instr, Statement i
  | .nop => nop
  | .cls => cls
  | .ret => ret
  | .jp nnn => jp nnn
  | .call nnn => call nnn
  | .seImm x nn => seImm x nn
  | .sneImm x nn => sneImm x nn
  | .seReg x y => seReg x y
  | .ldImm x nn => ldImm x nn
  | .addImm x nn => addImm x nn
  | .ldReg x y => ldReg x y
  | .or x y => or x y
  | .and x y => and x y
  | .xor x y => xor x y
  | .addReg x y => addReg x y
  | .sub x y => sub x y
  | .shr x y => shr x y
  | .subn x y => subn x y
  | .shl x y => shl x y
  | .sneReg x y => sneReg x y
  | .ldI nnn => ldI nnn
  | .jpV0 nnn => jpV0 nnn
  | .rnd x nn => rnd x nn
  | .drw x y n => drw x y n

end Sys2Proof.Laws.RowSelects

namespace Sys2Proof

/-- A row selects the words that decode to its instructions. -/
theorem selects_iff {m : Mnemonic} {w : Word} : m.selects w ↔ ∃ i, decodeWord w = .instr i ∧ i.mnemonic = m := by
  simp only [decodeWord_eq_instr_iff]
  constructor
  · exact exists_encode_of_selects
  · rintro ⟨i, rfl, rfl⟩
    exact (Laws.RowSelects.statement_holds i).2

theorem forall_not_selects_iff {w : Word} : (∀ m : Mnemonic, ¬ m.selects w) ↔ ∀ i, decodeWord w ≠ .instr i := by
  simp only [selects_iff]
  exact ⟨fun h i hi => h _ ⟨i, hi, rfl⟩, fun h _ ⟨i, hi, _⟩ => h i hi⟩

/-- Settles O3: rows and the decoder agree by `selects_iff`, and a word decodes to one instruction, which has one row. -/
theorem everyWordSelectsOneRowOrIsUnsupported : Obligations.EveryWordSelectsOneRowOrIsUnsupported := by
  intro w
  refine ⟨fun m => selects_iff, decodeWord_eq_unsupported_iff.trans forall_not_selects_iff.symm, fun m m' hm hm' => ?_⟩
  obtain ⟨i, hi, rfl⟩ := selects_iff.1 hm
  obtain ⟨i', hi', rfl⟩ := selects_iff.1 hm'
  rw [Decoded.instr.inj (hi.symm.trans hi')]

/-! ## The words that no row selects -/

theorem fieldOp_val (w : Word) : (fieldOp w).val = w.toNat / 4096 := by
  have h : (fieldOp w).val = w.toNat / 4096 % 16 := by simp [fieldOp, Nat.shiftRight_eq_div_pow]
  omega

theorem fieldN_val (w : Word) : (fieldN w).val = w.toNat % 16 := by simp [fieldN]

theorem decodeFamily0_eq_unsupported_iff (w : Word) :
    decodeFamily0 w = .unsupported w ↔ w.toNat ≠ 0 ∧ w.toNat ≠ 0xE0 ∧ w.toNat ≠ 0xEE := by
  unfold decodeFamily0
  split_ifs with nop cls ret
  · simp [nop]
  · simp [cls]
  · simp [ret]
  · rw [← BitVec.toNat_inj] at nop cls ret
    exact iff_of_true rfl ⟨nop, cls, ret⟩

theorem decodeFamily8_eq_unsupported_iff (w : Word) :
    decodeFamily8 w = .unsupported w ↔ 8 ≤ w.toNat % 16 ∧ w.toNat % 16 ≠ 0xE := by
  unfold decodeFamily8
  simp only [fieldN_val]
  split
  case h_10 =>
    simp only [imp_false] at *
    exact iff_of_true trivial (by omega)
  all_goals exact iff_of_false nofun (by omega)

/-- Settles O4, by cases on the family: a decoded word is in none of the sets. -/
theorem unsupportedWordsAreExactlyTheListedSets : Obligations.UnsupportedWordsAreExactlyTheListedSets := by
  intro w
  unfold decodeWord
  simp only [fieldOp_val, fieldN_val]
  split
  case h_1 =>
    rw [decodeFamily0_eq_unsupported_iff]
    omega
  case h_6 | h_10 =>
    split_ifs
    · exact iff_of_false nofun (by omega)
    · exact iff_of_true rfl (by omega)
  case h_9 =>
    rw [decodeFamily8_eq_unsupported_iff]
    omega
  case h_15 =>
    simp only [imp_false] at *
    exact iff_of_true trivial (by omega)
  all_goals exact iff_of_false nofun (by omega)

end Sys2Proof

/-! PROOF. The Step (spec/40_step_cycle.md R90 to R95): the fields of the fetched word, the instruction a Step runs, what a completed
Step leaves unchanged, totality, and the byte that RND alone reads. -/

namespace Sys2Proof

/-! ## The fields of a word, beside `fieldOp_val` and `fieldN_val` -/

section
variable (w : Word)

theorem fieldX_val : (fieldX w).val = w.toNat / 256 % 16 := by simp [fieldX, Nat.shiftRight_eq_div_pow]

theorem fieldY_val : (fieldY w).val = w.toNat / 16 % 16 := by simp [fieldY, Nat.shiftRight_eq_div_pow]

theorem toNat_fieldNN : (fieldNN w).toNat = w.toNat % 256 := by simp [fieldNN]

theorem toNat_fieldNNN : (fieldNNN w).toNat = w.toNat % 4096 := by simp [fieldNNN]

end

/-- The split that goes with `execWith_rnd` and `execWith_of_ne_rnd`. -/
theorem Instr.eq_rnd_or_mnemonic_ne (i : Instr) : (∃ x nn, i = .rnd x nn) ∨ i.mnemonic ≠ .RND := by
  cases i with
  | rnd x nn => exact .inl ⟨x, nn, rfl⟩
  | _ => exact .inr nofun

end Sys2Proof

namespace Sys2Proof.Machine

/-! ## The byte of a Step -/

/-- A Step depends on the meaning of no instruction but the one it fetches. -/
theorem stepBy_congr {run run' : Instr → State → Host.Outcome State Fault Refusal} {s : State}
    (hrun : ∀ ins i, s.fetch = some ins → decodeWord ins = .instr i → run i s = run' i s) :
    stepBy run s = stepBy run' s := by
  unfold stepBy
  split
  · rfl
  · split
    · rfl
    · next ins hf =>
      split
      · next i hd => exact hrun ins i hf hd
      · rfl
      · rfl

/-- The meaning on the byte that `exec` would draw is `exec`, but that it leaves the counter. -/
theorem execWith_randomByte {i : Instr} {s t : State} (h : exec i s = .next t) :
    execWith s.randomByte i s = .next (t.setRndDraws s.rndDraws) := by
  rcases i.eq_rnd_or_mnemonic_ne with ⟨x, nn, rfl⟩ | hi
  · obtain rfl := Host.Outcome.next.inj h
    rfl
  · rw [execWith_of_ne_rnd _ hi]
    exact exec_setRndDraws s.rndDraws hi h

/-- The Step on the byte that `step` would draw is `step`, but that it leaves the counter. -/
theorem stepWith_randomByte {s t : State} (h : step s = .next t) :
    stepWith s.randomByte s = .next (t.setRndDraws s.rndDraws) := by
  rcases step_cases h with ⟨hh, rfl⟩ | ⟨hh, hf, rfl⟩ | ⟨ins, hh, hf, hd, rfl⟩ | ⟨ins, i, hh, hf, hd, hx⟩
  · exact stepBy_halted _ hh
  · exact stepBy_fetchFault _ hh hf
  · exact stepBy_unsupported _ hh hf hd
  · exact (stepBy_instr _ hh hf hd).trans (execWith_randomByte hx)

/-! ## A completed Step -/

section
variable {s t : State} (hs : s.halted = false) (ht : t.halted = false)
include ht

/-- FSR is written by faults alone, and a fault leaves the engine halted. -/
theorem FSR_eq_of_exec {i : Instr} (h : exec i s = .next t) : t.FSR = s.FSR := by
  obtain ⟨-, -, -, -, -, -, -, -, -, hFSR⟩ := eachElementHasOnlyItsNamedWriters i s t h
  cases i with
  | ret =>
    rcases execRet_cases h with ⟨-, rfl⟩ | ⟨-, rfl⟩
    · cases ht
    · rfl
  | call nnn =>
    rcases execCall_cases h with ⟨-, rfl⟩ | ⟨-, rfl⟩
    · cases ht
    · rfl
  | drw x y n =>
    rcases execDrw_cases h with ⟨-, rfl⟩ | ⟨-, -, rfl⟩
    · cases ht
    · rfl
  | _ => simpa [Instr.mnemonic] using hFSR

theorem untouched_of_exec {i : Instr} (h : exec i s = .next t) : Untouched s t := by
  obtain ⟨hmem, hDT, hST, hkey, -⟩ := eachElementHasOnlyItsNamedWriters i s t h
  exact ⟨fun a => by rw [hmem], hDT, hST, hkey, FSR_eq_of_exec ht h⟩

include hs

/-- An instruction that completes does so on every byte. -/
theorem execWith_completes (r : Byte) {i : Instr} (h : exec i s = .next t) :
    ∃ u, execWith r i s = .next u ∧ u.halted = false ∧ Untouched s u := by
  rcases i.eq_rnd_or_mnemonic_ne with ⟨x, nn, rfl⟩ | hi
  · exact ⟨rndWith r x nn s, rfl, hs, fun _ => rfl, rfl, rfl, rfl, rfl⟩
  · exact ⟨t, (execWith_of_ne_rnd r hi s).trans h, ht, untouched_of_exec ht h⟩

theorem stepReport_of_running : stepReport s t = .ok := by simp [stepReport, hs, ht]

/-- A Step that ends running has run an instruction: its other ways end halted. -/
theorem exists_instr_of_step_completes (h : step s = .next t) :
    ∃ ins i, s.fetch = some ins ∧ decodeWord ins = .instr i ∧ exec i s = .next t := by
  rcases step_cases h with ⟨hh, -⟩ | ⟨-, -, rfl⟩ | ⟨_, -, -, -, rfl⟩ | ⟨ins, i, -, hf, hd, hx⟩
  · exact absurd hh (Bool.eq_false_iff.1 hs)
  · cases ht
  · cases ht
  · exact ⟨ins, i, hf, hd, hx⟩

end

end Sys2Proof.Machine

namespace Sys2Proof

open Machine

/-- Settles O14: the instruction that the Step ran touches none of these, on its own byte or on the host's. -/
theorem completedStepCommitsOneInstruction : Obligations.CompletedStepCommitsOneInstruction := by
  intro s t hs h ht
  obtain ⟨ins, i, hf, hd, hx⟩ := exists_instr_of_step_completes hs ht h
  refine ⟨⟨ins, i, hf, hd, hx⟩, untouched_of_exec ht hx, fun r => ?_⟩
  obtain ⟨u, hu, hur, hsu⟩ := execWith_completes hs ht r hx
  have hstep : HostOp.apply (.step r) s = .next (u, .step (stepReport s u)) :=
    hostStep_of_next ((stepBy_instr _ hs hf hd).trans hu)
  exact ⟨u, stepReport_of_running hs hur ▸ hstep, hur, hsu⟩

/-- Settles O15: a run by induction on its operations. -/
theorem everyOperationAnswersANextState : Obligations.EveryOperationAnswersANextState := by
  refine ⟨fun s => stepBy_total fun i => exec_total i s, fun ops => ?_⟩
  induction ops with
  | nil => exact fun s => ⟨s, [], rfl, rfl⟩
  | cons op ops ih =>
    intro s
    obtain ⟨u, reply, hop⟩ := op.apply_total s
    obtain ⟨t, replies, hops, hlen⟩ := ih u
    exact ⟨t, reply :: replies, HostOp.run_cons_iff.2 ⟨u, reply, replies, hop, hops, rfl⟩, congrArg (· + 1) hlen⟩

/-- Settles O59: on two bytes the Step runs equal meanings, since the instruction it fetches is no RND. -/
theorem onlyRndReadsTheByteOfTheStep : Obligations.OnlyRndReadsTheByteOfTheStep := by
  constructor
  · intro s t h
    exact hostStep_of_next (stepWith_randomByte h)
  · intro s r r' hne
    have hstep : stepWith r s = stepWith r' s := stepBy_congr fun ins i hf hd => by
      rcases i.eq_rnd_or_mnemonic_ne with ⟨x, nn, rfl⟩ | hi
      · exact absurd hd (hne ins x nn hf)
      · rw [execWith_of_ne_rnd r hi, execWith_of_ne_rnd r' hi]
    simp only [HostOp.apply, hostStep, hstep]

/-- Settles O5. -/
theorem fieldsAreTheSlicesOfTheWord : Obligations.FieldsAreTheSlicesOfTheWord :=
  fun w => ⟨fieldOp_val w, fieldX_val w, fieldY_val w, fieldN_val w, toNat_fieldNN w, toNat_fieldNNN w⟩

/-- Settles O9. -/
theorem stepRunsTheDecodedInstruction : Obligations.StepRunsTheDecodedInstruction :=
  fun _ _ _ hs hf hd => stepBy_instr exec hs hf hd

end Sys2Proof

/-! PROOF. Control flow (spec/41_control_flow.md R100 to R109): the instructions that write nothing but `pc`, and the words that
decode to them. -/

namespace Sys2Proof.Machine

/-! ## Instructions that write `pc` alone -/

theorem onlyRegs_setPc (l : List Reg) (s : State) (v : Word) : OnlyRegs l s (s.setPc v) where
  mem _ := rfl
  DT := rfl
  ST := rfl
  key := rfl
  FSR := rfl
  regs _ _ := rfl
  I := rfl
  stack := rfl
  sp := rfl
  disp := rfl
  rndDraws := rfl

/-- A skip after the advance of fetch moves `pc` by 4 in all. -/
theorem State.skipIf_advance (s : State) (c : Bool) :
    s.advance.skipIf c = s.setPc (if c then s.pc + 4#16 else s.pc + 2#16) := by
  cases c with
  | false => rfl
  | true => exact congrArg s.setPc (BitVec.add_assoc s.pc 2#16 2#16)

/-- The two skips on one comparison: SE skips when the bytes are equal, SNE when they differ. -/
theorem skips_of_compare {se sne : Instr} {s : State} {a b : Byte}
    (hse : exec se s = .next (s.advance.skipIf (decide (a = b))))
    (hsne : exec sne s = .next (s.advance.skipIf (decide (a ≠ b)))) :
    (∃ t, exec se s = .next t ∧ OnlyRegs [] s t ∧ t.pc = if a.toNat = b.toNat then s.pc + 4#16 else s.pc + 2#16) ∧
    (∃ t, exec sne s = .next t ∧ OnlyRegs [] s t ∧ t.pc = if a.toNat = b.toNat then s.pc + 2#16 else s.pc + 4#16) := by
  rw [State.skipIf_advance] at hse hsne
  exact ⟨⟨_, hse, onlyRegs_setPc .., by simp [BitVec.toNat_inj]⟩, ⟨_, hsne, onlyRegs_setPc .., by simp [BitVec.toNat_inj]⟩⟩

end Sys2Proof.Machine

namespace Sys2Proof

open Machine

theorem toNat_and_low_nibble (w : Word) : (w &&& 0x000F#16).toNat = w.toNat % 16 :=
  Nat.and_two_pow_sub_one_eq_mod w.toNat 4

/-- Settles O25: the sum of a byte and a 12-bit immediate fits 16 bits. -/
theorem jumpV0AddsRegisterZero : Obligations.JumpV0AddsRegisterZero := by
  refine ⟨fun ins h => decodeWord_eq_instr_iff.2 (encodeNNN_fields (fieldOp_of_mask 0xB#4 h)), fun nnn s => ?_⟩
  have hsum := toNat_jumpV0Target (s.readV 0) nnn
  have hle : (jumpV0Target (s.readV 0) nnn).toNat ≤ 0x10FE := by omega
  exact ⟨s.setPc (jumpV0Target (s.readV 0) nnn), rfl, hsum, hle, onlyRegs_setPc ..⟩

/-- Settles O31. -/
theorem immediateSkipsCompareAllEightBits : Obligations.ImmediateSkipsCompareAllEightBits :=
  ⟨fun _ h => decodeWord_eq_instr_iff.2 (encodeXNN_fields (fieldOp_of_mask 0x3#4 h)),
    fun _ h => decodeWord_eq_instr_iff.2 (encodeXNN_fields (fieldOp_of_mask 0x4#4 h)),
    fun _ _ _ => skips_of_compare rfl rfl⟩

/-- Settles O32: the words with another low nibble are among the sets of R76 by their family. -/
theorem registerSkipsCompareRegisters : Obligations.RegisterSkipsCompareRegisters := by
  refine ⟨fun _ h => decodeWord_eq_instr_iff.2 (encodeXYN_of_mask 0x5#4 0x0#4 h),
    fun _ h => decodeWord_eq_instr_iff.2 (encodeXYN_of_mask 0x9#4 0x0#4 h), fun ins hop hn => ?_,
    fun _ _ _ => skips_of_compare rfl rfl⟩
  have hn16 : ins.toNat % 16 ≠ 0 := fun h0 => hn (BitVec.eq_of_toNat_eq ((toNat_and_low_nibble ins).trans h0))
  refine (unsupportedWordsAreExactlyTheListedSets ins).2 ?_
  rcases hop with h5 | h9
  · exact .inr (.inl ⟨(fieldOp_val ins).symm.trans (fieldOp_of_mask 0x5#4 h5), hn16⟩)
  · exact .inr (.inr (.inr (.inl ⟨(fieldOp_val ins).symm.trans (fieldOp_of_mask 0x9#4 h9), hn16⟩)))

/-- Settles O23: the illegal neighbours are the first set of R76. -/
theorem nopOnlyAdvances : Obligations.NopOnlyAdvances := by
  refine ⟨decodeWord_encode .nop, fun ins hfam hnop hcls hret => ?_, fun s => ⟨s.advance, rfl, rfl, onlyRegs_setPc ..⟩⟩
  rw [← BitVec.toNat_ne_iff_ne] at hnop hcls hret
  exact (unsupportedWordsAreExactlyTheListedSets ins).2 (.inl ⟨hfam, hnop, hcls, hret⟩)

/-- Settles O24. -/
theorem jumpSetsPc : Obligations.JumpSetsPc :=
  ⟨fun _ h => decodeWord_eq_instr_iff.2 (encodeNNN_fields (fieldOp_of_mask 0x1#4 h)),
    fun nnn s => ⟨s.setPc (zext16 nnn), rfl, toNat_zext16 nnn, onlyRegs_setPc ..⟩⟩

end Sys2Proof

/-! PROOF. Loads, arithmetic and logic (spec/42_load_alu.md R120 to R133): a meaning here writes one register, or a register and VF, so
each statement is the write's frame and value together with the exact integer of the result or the flag. -/

namespace Sys2Proof

open Machine

/-! ## What an instruction that writes registers leaves, by the shape of its next state -/

/-- A write of a listed register keeps the frame. -/
theorem OnlyRegs.writeV {l : List Reg} {s t : State} (h : OnlyRegs l s t) {x : Reg} (hx : x ∈ l) (b : Byte) :
    OnlyRegs l s (t.writeV x b) where
  mem := h.mem
  DT := h.DT
  ST := h.ST
  key := h.key
  FSR := h.FSR
  regs k hk := (t.readV_writeV_other b (ne_of_mem_of_not_mem hx hk).symm).trans (h.regs k hk)
  I := h.I
  stack := h.stack
  sp := h.sp
  disp := h.disp
  rndDraws := h.rndDraws

theorem onlyRegs_advance_writeV (x : Reg) (b : Byte) (s : State) : OnlyRegs [x] s (s.advance.writeV x b) :=
  (onlyRegs_setPc [x] s _).writeV List.mem_cons_self b

section
variable {i : Instr} {s : State} {x : Reg} {b f : Byte}

/-- R121 to R126: one register written. -/
theorem exec_of_writeV (h : exec i s = .next (s.advance.writeV x b)) :
    ∃ t, exec i s = .next t ∧ t.readV x = b ∧ t.pc = s.pc + 2#16 ∧ OnlyRegs [x] s t :=
  ⟨_, h, State.readV_writeV_same .., rfl, onlyRegs_advance_writeV x b s⟩

/-- R127, R128, R130: the result, then the flag, which is what VF ends as even when `x = 15`. -/
theorem exec_of_result_then_flag (h : exec i s = .next ((s.advance.writeV x b).writeV VF f)) :
    ∃ t, exec i s = .next t ∧ t.pc = s.pc + 2#16 ∧ OnlyRegs [x, 15] s t ∧ (x ≠ 15 → t.readV x = b) ∧ t.readV 15 = f := by
  have hframe : OnlyRegs [x, 15] s ((s.advance.writeV x b).writeV VF f) :=
    ((onlyRegs_setPc _ s _).writeV (by simp) b).writeV (by simp [VF]) f
  refine ⟨_, h, rfl, hframe, fun hx => ?_, State.readV_writeV_same ..⟩
  exact (State.readV_writeV_other _ f hx).trans (State.readV_writeV_same ..)

/-- R129, R131: the flag, then the shift in place, which shifts the flag itself when `x = 15`. -/
theorem exec_of_flag_then_shift {shift : Byte → Byte}
    (h : exec i s = .next ((s.advance.writeV VF f).writeV x (shift ((s.advance.writeV VF f).readV x)))) :
    ∃ t, exec i s = .next t ∧ t.pc = s.pc + 2#16 ∧ OnlyRegs [x, 15] s t ∧
      (x ≠ 15 → t.readV x = shift (s.readV x) ∧ t.readV 15 = f) ∧ (x = 15 → t.readV 15 = shift f) := by
  refine ⟨_, h, rfl, ((onlyRegs_setPc _ s _).writeV (by simp [VF]) f).writeV (by simp) _, fun hx => ⟨?_, ?_⟩, ?_⟩
  · exact (State.readV_writeV_same ..).trans (congrArg shift (State.readV_writeV_other _ f hx))
  · exact (State.readV_writeV_other _ _ hx.symm).trans (State.readV_writeV_same ..)
  · rintro rfl
    exact (State.readV_writeV_same ..).trans (congrArg shift (State.readV_writeV_same ..))

end

/-! ## Loads -/

/-- Settles O33. -/
theorem loadsSetOnlyTheirRegister : Obligations.LoadsSetOnlyTheirRegister :=
  ⟨fun _ h => decodeWord_eq_instr_iff.2 (encodeXNN_fields (fieldOp_of_mask 0x6#4 h)),
    fun _ h => decodeWord_eq_instr_iff.2 (encodeXYN_of_mask 0x8#4 0x0#4 h),
    fun _ _ _ => exec_of_writeV rfl, fun _ _ _ => exec_of_writeV rfl⟩

/-- Settles O43: the only writer by the table of who writes which element. -/
theorem loadIndexZeroExtends : Obligations.LoadIndexZeroExtends := by
  refine ⟨fun _ h => decodeWord_eq_instr_iff.2 (encodeNNN_fields (fieldOp_of_mask 0xA#4 h)), fun i s t h => ?_, fun nnn s => ?_⟩
  · obtain ⟨-, -, -, -, hI, -⟩ := eachElementHasOnlyItsNamedWriters i s t h
    exact hI
  · exact ⟨s.advance.setI (zext16 nnn), rfl, toNat_zext16 nnn, rfl, ⟨fun _ => rfl, rfl, rfl, rfl, rfl⟩, fun _ => rfl, rfl, rfl,
      rfl, rfl⟩

/-! ## Results without a flag -/

/-- Settles O34. -/
theorem addImmediateWrapsWithoutFlag : Obligations.AddImmediateWrapsWithoutFlag := by
  refine ⟨fun _ h => decodeWord_eq_instr_iff.2 (encodeXNN_fields (fieldOp_of_mask 0x7#4 h)), fun x nn s => ?_⟩
  obtain ⟨t, ht, hx, hpc, hframe⟩ := exec_of_writeV (i := .addImm x nn) (s := s) rfl
  exact ⟨t, ht, hx ▸ toNat_addResult _ _, hpc, hframe⟩

/-- One of the three logic operations, from what its operation does to each bit. -/
theorem exec_of_bitwise {i : Instr} {s : State} {x y : Reg} {b : Byte} {op : Bool → Bool → Bool}
    (h : exec i s = .next (s.advance.writeV x b))
    (hbits : ∀ k, b.getLsbD k = op ((s.readV x).getLsbD k) ((s.readV y).getLsbD k)) :
    ∃ t, exec i s = .next t ∧ t.pc = s.pc + 2#16 ∧ OnlyRegs [x] s t ∧
      ∀ k < 8, (t.readV x).getLsbD k = op ((s.readV x).getLsbD k) ((s.readV y).getLsbD k) := by
  obtain ⟨t, ht, hx, hpc, hframe⟩ := exec_of_writeV h
  exact ⟨t, ht, hpc, hframe, fun k _ => hx ▸ hbits k⟩

/-- Settles O35. -/
theorem logicActsOnEachBit : Obligations.LogicActsOnEachBit :=
  ⟨fun _ h => decodeWord_eq_instr_iff.2 (encodeXYN_of_mask 0x8#4 0x1#4 h),
    fun _ h => decodeWord_eq_instr_iff.2 (encodeXYN_of_mask 0x8#4 0x2#4 h),
    fun _ h => decodeWord_eq_instr_iff.2 (encodeXYN_of_mask 0x8#4 0x3#4 h),
    fun _ _ _ => ⟨exec_of_bitwise rfl fun _ => BitVec.getLsbD_or, exec_of_bitwise rfl fun _ => BitVec.getLsbD_and,
      exec_of_bitwise rfl fun _ => BitVec.getLsbD_xor⟩⟩

/-! ## Results with a flag -/

/-- Settles O36. -/
theorem addRegistersSetsCarry : Obligations.AddRegistersSetsCarry := by
  intro x y s
  obtain ⟨t, ht, hpc, hframe, hx, hVF⟩ := exec_of_result_then_flag (i := .addReg x y) (s := s) rfl
  exact ⟨t, ht, hpc, hframe, fun hne => hx hne ▸ toNat_addResult _ _, hVF.trans (addFlag_eq _ _)⟩

/-- Settles O37. -/
theorem subtractSetsNoBorrow : Obligations.SubtractSetsNoBorrow := by
  intro x y s
  obtain ⟨t, ht, hpc, hframe, hx, hVF⟩ := exec_of_result_then_flag (i := .sub x y) (s := s) rfl
  exact ⟨t, ht, hpc, hframe, fun hne => hx hne ▸ toNat_subResult _ _, hVF.trans (subFlag_eq _ _)⟩

/-- Settles O38. -/
theorem subtractReversedSetsNoBorrow : Obligations.SubtractReversedSetsNoBorrow := by
  intro x y s
  obtain ⟨t, ht, hpc, hframe, hx, hVF⟩ := exec_of_result_then_flag (i := .subn x y) (s := s) rfl
  exact ⟨t, ht, hpc, hframe, fun hne => hx hne ▸ toNat_subResult _ _, hVF.trans (subFlag_eq _ _)⟩

/-! ## Shifts -/

/-- SHR of VF shifts the flag out. -/
theorem shrResult_shrFlag (a : Byte) : shrResult (shrFlag a) = 0x00#8 := by
  apply BitVec.eq_of_toNat_eq
  rw [toNat_shrResult, toNat_shrFlag]
  exact Nat.div_eq_of_lt (Nat.mod_lt _ (by decide))

/-- SHL of VF doubles the flag. -/
theorem shlResult_shlFlag (a : Byte) : shlResult (shlFlag a) = if 128 ≤ a.toNat then 0x02#8 else 0x00#8 := by
  apply BitVec.eq_of_toNat_eq
  have ha := a.isLt
  rw [toNat_shlResult, toNat_shlFlag]
  split_ifs with h
  · have hflag : a.toNat / 128 = 1 := by omega
    rw [hflag]
    rfl
  · have hflag : a.toNat / 128 = 0 := by omega
    rw [hflag]
    rfl

/-- Settles O39. -/
theorem shiftRightSetsLowBit : Obligations.ShiftRightSetsLowBit := by
  intro x y s
  obtain ⟨t, ht, hpc, hframe, hne, heq⟩ := exec_of_flag_then_shift (i := .shr x y) (s := s) (shift := shrResult) rfl
  refine ⟨t, ht, hpc, hframe, fun hx => ?_, fun hx => (heq hx).trans (shrResult_shrFlag _)⟩
  obtain ⟨hVx, hVF⟩ := hne hx
  exact ⟨hVx ▸ toNat_shrResult _, hVF ▸ toNat_shrFlag _⟩

/-- Settles O40. -/
theorem shiftLeftSetsHighBit : Obligations.ShiftLeftSetsHighBit := by
  intro x y s
  obtain ⟨t, ht, hpc, hframe, hne, heq⟩ := exec_of_flag_then_shift (i := .shl x y) (s := s) (shift := shlResult) rfl
  refine ⟨t, ht, hpc, hframe, fun hx => ?_, fun hx => ?_⟩
  · obtain ⟨hVx, hVF⟩ := hne hx
    exact ⟨hVx ▸ toNat_shlResult _, hVF ▸ toNat_shlFlag _⟩
  · obtain rfl := hx
    exact (heq rfl).trans (shlResult_shlFlag _)

/-! ## The random byte -/

theorem readV_rndWith (r : Byte) (x : Reg) (nn : Byte) (s : State) : (rndWith r x nn s).readV x = r &&& nn :=
  State.readV_writeV_same ..

/-- The host's Step on `r`, at a RND. -/
theorem apply_step_of_rnd (r : Byte) {x : Reg} {nn : Byte} {s : State} {ins : Word} (hs : s.halted = false)
    (hf : s.fetch = some ins) (hd : decodeWord ins = .instr (.rnd x nn)) :
    HostOp.apply (.step r) s = .next (rndWith r x nn s, .step .ok) := by
  have hstep : stepWith r s = .next (rndWith r x nn s) := (stepBy_instr _ hs hf hd).trans (execWith_rnd r x nn s)
  have hok : stepReport s (rndWith r x nn s) = .ok := stepReport_of_running hs hs
  exact hok ▸ hostStep_of_next hstep

/-- Settles O44: the draw of `exec`, the host's Step, and the bits of the AND. -/
theorem randomByteIsMasked : Obligations.RandomByteIsMasked := by
  refine ⟨fun x nn s => ?_, fun r x nn s ins hs hf hd => ?_, fun r x nn s => ?_⟩
  · exact ⟨rndWith s.randomByte x nn s.consumeRandom, rfl, readV_rndWith .., rfl, rfl, ⟨fun _ => rfl, rfl, rfl, rfl, rfl⟩,
      fun k hk => State.readV_writeV_other _ _ hk, rfl, rfl, rfl, rfl⟩
  · exact ⟨apply_step_of_rnd r hs hf hd, readV_rndWith .., rfl, onlyRegs_advance_writeV x _ s⟩
  · rw [readV_rndWith]
    refine ⟨fun k _ => BitVec.getLsbD_and, ?_, ?_⟩
    · rintro rfl
      exact BitVec.and_zero
    · rintro rfl
      exact BitVec.and_allOnes

end Sys2Proof

/-! PROOF. The display (spec/43_display.md R151 and R153): CLS, and the second of two equal DRWs. -/

namespace Sys2Proof.Machine

/-! ## Drawing the same sprite again -/

theorem readV_writeV_flagByte_eq_one_iff (s : State) (b : Bool) :
    (s.writeV VF (flagByte b)).readV 15 = 0x01#8 ↔ b = true :=
  (s.readV_writeV_same VF (flagByte b)).congr_left.trans (by cases b <;> decide)

section
variable {x y : Reg} {n : Fin 16} {s t : State} {cx : Fin 64} {cy : Fin 32}

theorem pixelAt_drawn_of_covers (h : SpriteCovers s x y n cx cy) :
    pixelAt (drawn x y n s).1 cx cy = !pixelAt s.disp cx cy :=
  Bool.eq_not_iff.2 ((drawn_flips_iff x y n s cx cy).2 h)

theorem pixelAt_drawn_of_not_covers (h : ¬ SpriteCovers s x y n cx cy) :
    pixelAt (drawn x y n s).1 cx cy = pixelAt s.disp cx cy :=
  not_not.1 (mt (drawn_flips_iff x y n s cx cy).1 h)

variable (hx : x ≠ 15) (hy : y ≠ 15) (hframe : OnlyDisplayAndRegs [15] s t)
include hx hy hframe

/-- A DRW keeps what says where its sprite lies, unless VF is one of its coordinates. -/
theorem spriteCovers_after_draw : SpriteCovers t x y n cx cy ↔ SpriteCovers s x y n cx cy := by
  have hVx := hframe.regs x (by simpa using hx)
  have hVy := hframe.regs y (by simpa using hy)
  simp only [SpriteCovers, hframe.mem, hframe.I, hVx, hVy]

variable (hdisp : t.disp = (drawn x y n s).1)
include hdisp

/-- A pixel is flipped by both drawings or by neither. -/
theorem drawn_again_display : (drawn x y n t).1 = s.disp := by
  refine display_ext fun cx cy => ?_
  have hcov' := spriteCovers_after_draw hx hy hframe (n := n) (cx := cx) (cy := cy)
  by_cases hcov : SpriteCovers s x y n cx cy
  · rw [pixelAt_drawn_of_covers (hcov'.2 hcov), hdisp, pixelAt_drawn_of_covers hcov, Bool.not_not]
  · rw [pixelAt_drawn_of_not_covers (mt hcov'.1 hcov), hdisp, pixelAt_drawn_of_not_covers hcov]

/-- The second drawing hits the pixels that the first turned on. -/
theorem drawn_again_hit_iff :
    (drawn x y n t).2 = true ↔ ∃ cx cy, SpriteCovers s x y n cx cy ∧ pixelAt s.disp cx cy = false := by
  rw [drawn_hit_iff]
  refine exists_congr fun cx => exists_congr fun cy => ?_
  rw [spriteCovers_after_draw hx hy hframe]
  refine and_congr_right fun hcov => ?_
  rw [hdisp, pixelAt_drawn_of_covers hcov, Bool.not_eq_true']

end

end Sys2Proof.Machine

namespace Sys2Proof

open Machine

/-- Settles O48: the first DRW changes only `pc`, VF and the display, so the second draws the same sprite at the same place. -/
theorem drawTwiceRestoresTheDisplay : Obligations.DrawTwiceRestoresTheDisplay := by
  intro x y n s hx hy hfits
  have hframe := onlyDisplayAndRegs_draw s (drawn x y n s).1 (flagByte (drawn x y n s).2)
  exact ⟨_, _, execDrw_of_fits x y n s hfits, execDrw_of_fits x y n _ hfits, drawn_again_display hx hy hframe rfl,
    (readV_writeV_flagByte_eq_one_iff _ _).trans (drawn_again_hit_iff hx hy hframe rfl)⟩

/-- Settles O45: the illegal neighbours are in the first set of R76. -/
theorem clearTurnsEveryPixelOff : Obligations.ClearTurnsEveryPixelOff := by
  refine ⟨decodeWord_encode .cls, fun ins hlo hhi => ?_, fun s => ?_⟩
  · exact (unsupportedWordsAreExactlyTheListedSets ins).2 (.inl (by omega))
  · exact ⟨s.advance.setDisp clearDisplay, rfl, pixelAt_clearDisplay, rfl,
      ⟨fun _ => rfl, rfl, rfl, rfl, rfl⟩, fun _ _ => rfl, rfl, rfl, rfl, rfl⟩

end Sys2Proof

/-! PROOF. Exceptions and host services (spec/60_exceptions.md): the faults a Step can take (R160 to R167), the timers and the sound
(R171 to R174), the display as the host reads it (R175), the keys (R176). -/

namespace Sys2Proof.Machine

/-! ## The fault of a Step -/

section
variable {s t : State} (hs : s.halted = false) (ht : t.halted = true)
include hs ht

/-- The instructions that can halt a running engine are those that may write FSR. -/
theorem mnemonic_of_exec_halts {i : Instr} (h : exec i s = .next t) :
    i.mnemonic = .RET ∨ i.mnemonic = .CALL ∨ i.mnemonic = .DRW := by
  obtain ⟨-, -, -, -, -, -, -, -, -, hFSR⟩ := eachElementHasOnlyItsNamedWriters i s t h
  refine hFSR fun hkept => ?_
  have hvalid : t.halted = s.halted := congrArg Fsr.valid hkept
  simp [hs, ht] at hvalid

/-- Everything an instruction that halts the engine can have done (spec/60_exceptions.md R162 to R164). -/
theorem exec_fault_cases {i : Instr} (h : exec i s = .next t) :
    ∃ c : FaultCause, t = s.takeFault c (some (encode i)) ∧
      ((c = .stackOverflow ∧ (∃ nnn, i = .call nnn) ∧ s.sp.val = 48) ∨
       (c = .stackUnderflow ∧ i = .ret ∧ s.sp.val = 0) ∨
       (c = .memOob ∧ ∃ x y n, i = .drw x y n ∧ 0 < n.val ∧ 4095 < s.I.toNat + n.val - 1)) := by
  have hm := mnemonic_of_exec_halts hs ht h
  cases i with
  | call nnn =>
    rcases execCall_cases h with ⟨hfull, rfl⟩ | ⟨_, rfl⟩
    · exact ⟨_, rfl, .inl ⟨rfl, ⟨nnn, rfl⟩, hfull⟩⟩
    · exact absurd (hs.symm.trans ht) nofun
  | ret =>
    rcases execRet_cases h with ⟨hempty, rfl⟩ | ⟨_, rfl⟩
    · exact ⟨_, rfl, .inr (.inl ⟨rfl, rfl, hempty⟩)⟩
    · exact absurd (hs.symm.trans ht) nofun
  | drw x y n =>
    rcases execDrw_cases h with ⟨hnone, rfl⟩ | ⟨_, _, rfl⟩
    · exact ⟨_, rfl, .inr (.inr ⟨rfl, x, y, n, rfl, (memRead_eq_none_iff _ _ _).1 hnone⟩)⟩
    · exact absurd (hs.symm.trans ht) nofun
  | _ => simp [Instr.mnemonic] at hm

end

/-- The fault commit in the terms of the claims. -/
theorem State.takeFault_eq_faulted (s : State) (c : FaultCause) (ins : Option Word) :
    s.takeFault c ins = Faulted s c.code (ins.getD 0x0000#16) ins.isSome := rfl

/-! ## Timers and sound -/

theorem toNat_countDown (b : Byte) : (countDown b).toNat = b.toNat - 1 := by
  unfold countDown
  split
  · next h => simp [h]
  · next h => bv_omega

theorem tick_edge_iff (s : State) : (tick s).2 = true ↔ s.ST = 0x01#8 := decide_eq_true_iff

theorem readSoundActive_iff (s : State) : readSoundActive s = true ↔ s.ST.toNat ≠ 0 := by
  simp [readSoundActive, ← BitVec.toNat_inj]

/-- What each Tick lowers by 1 until it is 0, `v` Ticks lower by `v` until it is 0. -/
theorem toNat_iterate_tick {timer : State → Byte} (htick : ∀ u, (timer (tick u).1).toNat = (timer u).toNat - 1)
    (v : Nat) (s : State) : (timer ((fun u => (tick u).1)^[v] s)).toNat = (timer s).toNat - v := by
  induction v with
  | zero => rfl
  | succ v ih => rw [Function.iterate_succ_apply', htick, ih, Nat.sub_sub]

/-- The sound is active before an edge and silent after it. -/
theorem tick_edge_iff_active_then_silent (s : State) :
    (tick s).2 = true ↔ readSoundActive s = true ∧ readSoundActive (tick s).1 = false := by
  have hST : (tick s).1.ST.toNat = s.ST.toNat - 1 := toNat_countDown s.ST
  rw [tick_edge_iff, ← Bool.not_eq_true, readSoundActive_iff, readSoundActive_iff, hST, ← BitVec.toNat_inj]
  simp only [BitVec.toNat_ofNat]
  omega

end Sys2Proof.Machine

namespace Sys2Proof

open Machine

/-- Settles O13, by the ways of a Step: a fetch that raised, an unmatched word, or an instruction that halts the engine. -/
theorem everyFaultIsPrecise : Obligations.EveryFaultIsPrecise := by
  intro s t hs h ht
  rcases step_cases h with ⟨hh, -⟩ | ⟨-, hf, rfl⟩ | ⟨ins, -, hf, hd, rfl⟩ | ⟨ins, i, -, hf, hd, hx⟩
  · exact absurd (hs.symm.trans hh) nofun
  · exact ⟨_, _, _, s.takeFault_eq_faulted _ _, .inl ⟨rfl, rfl, rfl, s.fetch_eq_none_iff.1 hf⟩⟩
  · have hrow := forall_not_selects_iff.2 (decodeWord_eq_unsupported_iff.1 hd)
    exact ⟨_, _, _, s.takeFault_eq_faulted _ _, .inr ⟨rfl, hf, .inl ⟨rfl, hrow⟩⟩⟩
  · obtain ⟨c, rfl, hc⟩ := exec_fault_cases hs ht hx
    obtain rfl := decodeWord_eq_instr_iff.1 hd
    refine ⟨_, _, _, s.takeFault_eq_faulted _ _, .inr ⟨rfl, hf, .inr ?_⟩⟩
    rcases hc with ⟨rfl, ⟨nnn, rfl⟩, hfull⟩ | ⟨rfl, rfl, hempty⟩ | ⟨rfl, x, y, n, rfl, hpast⟩
    · exact .inl ⟨rfl, ⟨nnn, hd⟩, hfull⟩
    · exact .inr (.inl ⟨rfl, hd, hempty⟩)
    · exact .inr (.inr ⟨rfl, x, y, n, hd, hpast⟩)

/-- Settles O51: both timers count down alike, and `v` Ticks by induction. -/
theorem tickCountsBothTimersDown : Obligations.TickCountsBothTimersDown :=
  ⟨fun s => ⟨toNat_countDown s.DT, toNat_countDown s.ST, rfl, tick_edge_iff s, rfl⟩,
    fun v s => ⟨toNat_iterate_tick (timer := (·.DT)) (fun u => toNat_countDown u.DT) v s,
      toNat_iterate_tick (timer := (·.ST)) (fun u => toNat_countDown u.ST) v s⟩⟩

/-- Settles O52: after an edge the sound is silent, so the next Tick, which needs it active, returns none. -/
theorem soundEdgeIsOnePulse : Obligations.SoundEdgeIsOnePulse := by
  intro s
  refine ⟨tick_edge_iff s, tick_edge_iff_active_then_silent s, fun hedge => ?_, readSoundActive_iff s, rfl⟩
  have hsilent := ((tick_edge_iff_active_then_silent s).1 hedge).2
  refine Bool.eq_false_iff.2 fun hedge' => ?_
  have hactive := ((tick_edge_iff_active_then_silent _).1 hedge').1
  exact absurd (hsilent.symm.trans hactive) nofun

/-- Settles O53: `cx` and `cy` are the remainder and the quotient by 64 of the element's index. -/
theorem readDisplayIsRowMajor : Obligations.ReadDisplayIsRowMajor := by
  intro s
  refine ⟨readDisplay s, rfl, fun cx cy => ?_⟩
  have hcol : (cy.val * 64 + cx.val) % 64 = cx.val := by omega
  have hrow : (cy.val * 64 + cx.val) / 64 = cy.val := by omega
  simp only [readDisplay, Vector.getElem_ofFn, hcol, hrow]

/-- Settles O54: a Step changes FSR alone or runs an instruction, and none writes a key. -/
theorem keySetWritesOneFlag : Obligations.KeySetWritesOneFlag := by
  constructor
  · intro k b s
    refine ⟨keySet k b s, rfl, rfl, Vector.getElem_set_self k.isLt, fun j hj => ?_⟩
    exact Vector.getElem_set_ne k.isLt j.isLt fun hkj => hj (Fin.ext hkj.symm)
  · intro s t h
    rcases step_cases h with ⟨-, rfl⟩ | ⟨-, -, rfl⟩ | ⟨_, -, -, -, rfl⟩ | ⟨_, i, -, -, -, hx⟩
    · rfl
    · rfl
    · rfl
    · obtain ⟨-, -, -, hkey, -⟩ := eachElementHasOnlyItsNamedWriters i s t hx
      exact hkey

end Sys2Proof

/-! PROOF. Reset and the program image (spec/70_reset_and_hazards.md): the listed state (R190 to R192), Load (R193, R194), and the
first fetch after both (R196). -/

namespace Sys2Proof.Machine

/-! ## Memory after Reset -/

theorem resetByte_of_lt {a : Nat} (h : a < 80) : resetByte a = Config.fontRom ⟨a, h⟩ := dif_pos h

theorem resetByte_of_ge {a : Nat} (h : 80 ≤ a) : resetByte a = 0x00#8 := dif_neg (Nat.not_lt.2 h)

/-! ## Load: one equation per result -/

section
variable {bytes : List Byte} (s : State)

theorem load_of_fits (h : bytes.length ≤ 3584) : load bytes s = (s.setMem (s.mem.writeBytes 0x200 bytes), .ok) :=
  if_pos ((Program.wellFormed_iff bytes).2 h)

theorem load_of_too_long (h : 3584 < bytes.length) : load bytes s = (s, .loadCapacity) :=
  if_neg fun hfits => Nat.not_lt.2 ((Program.wellFormed_iff bytes).1 hfits) h

theorem HostOp.apply_load_of_fits (h : bytes.length ≤ 3584) :
    HostOp.apply (.load bytes) s = .next (s.setMem (s.mem.writeBytes 0x200 bytes), .load .ok) := by
  simp [HostOp.apply, load_of_fits s h]

theorem HostOp.apply_load_of_too_long (h : 3584 < bytes.length) :
    HostOp.apply (.load bytes) s = .next (s, .load .loadCapacity) := by
  simp [HostOp.apply, load_of_too_long s h]

end

end Sys2Proof.Machine

namespace Sys2Proof

open Machine

/-- Settles O49: both operations answer the reset state, beside the counter. -/
theorem resetGivesTheListedState : Obligations.ResetGivesTheListedState := by
  intro op s hop
  refine ⟨State.reset.setRndDraws s.rndDraws, ?_, rfl, rfl, fun k => Vector.getElem_replicate k.isLt,
    fun k => Vector.getElem_replicate k.isLt, rfl, pixelAt_clearDisplay, rfl, rfl,
    fun k => Vector.getElem_replicate k.isLt, rfl, fun a => resetByte_of_lt a.isLt, fun _ => resetByte_of_ge⟩
  rcases hop with rfl | rfl <;> rfl

/-- Settles O50: Load writes consecutive bytes from 0x200 up, and 3584 of them end at 4096. -/
theorem loadCopiesAllOrNothing : Obligations.LoadCopiesAllOrNothing := by
  intro bytes s hm
  refine ⟨fun hlen => ?_, HostOp.apply_load_of_too_long s⟩
  have hfits : 0x200 + bytes.length ≤ 4096 := by omega
  exact ⟨_, HostOp.apply_load_of_fits s hlen, rfl, fun _ => Memory.read_writeBytes_inside hm bytes hfits,
    fun _ => Memory.read_writeBytes_outside hm bytes hfits⟩

/-- Settles O57: Load keeps the reset `pc` and FSR, and the fetch at 0x200 reads the first two bytes it copied. -/
theorem bootFetchesTheFirstProgramWord : Obligations.BootFetchesTheFirstProgramWord := by
  intro hi lo rest s hrest
  have hlen : (hi :: lo :: rest).length ≤ 3584 := Nat.add_le_add_right hrest 2
  obtain ⟨t, hload, hframe, hcopy, -⟩ := (loadCopiesAllOrNothing (hi :: lo :: rest) s.resetInPlace Memory.reset_wf).1 hlen
  have hpc : t.pc = 0x0200#16 := congrArg (·.pc) hframe
  have hhi : t.mem.read 0x200 = hi := hcopy 0 (Nat.zero_lt_succ _)
  have hlo : t.mem.read 0x201 = lo := hcopy 1 (Nat.succ_lt_succ (Nat.zero_lt_succ _))
  refine ⟨t, ?_, hpc, congrArg (·.halted) hframe, ?_⟩
  · exact HostOp.run_cons_iff.2 ⟨_, _, _, rfl, HostOp.run_cons_iff.2 ⟨_, _, _, hload, rfl, rfl⟩, rfl⟩
  · have hfetch := t.fetch_of_le (by simp [hpc])
    simpa [hpc, hhi, hlo, wordOfBytes] using hfetch

end Sys2Proof

/-! PROOF. What remains: the ways a Step takes a fault or stays halted (spec/40_step_cycle.md R96, R97, spec/60_exceptions.md R160 to
R168), idle loops, CALL and RET (spec/41_control_flow.md R102, R104), the laws of the arithmetic (spec/42_load_alu.md R134), Steps
beside Ticks and KeySets (spec/20_memory.md R61), silence from reset (spec/60_exceptions.md R177), and the run of empty memory
(spec/70_reset_and_hazards.md R196). -/

namespace Sys2Proof

/-! ## The value of an encoding -/

theorem toNat_encodeNNN (op : BitVec 4) (nnn : Imm12) : (encodeNNN op nnn).toNat = op.toNat * 4096 + nnn.toNat := by
  have hop := fieldOp_val (encodeNNN op nnn)
  have hnnn := toNat_fieldNNN (encodeNNN op nnn)
  rw [fieldOp_encodeNNN, BitVec.val_toFin] at hop
  rw [fieldNNN_encodeNNN] at hnnn
  omega

theorem toNat_encodeXYN (op : BitVec 4) (x y : Reg) (n : Fin 16) :
    (encodeXYN op x y n).toNat = op.toNat * 4096 + x.val * 256 + y.val * 16 + n.val := by
  have hop := fieldOp_val (encodeXYN op x y n)
  have hx := fieldX_val (encodeXYN op x y n)
  have hy := fieldY_val (encodeXYN op x y n)
  have hn := fieldN_val (encodeXYN op x y n)
  rw [fieldOp_encodeXYN, BitVec.val_toFin] at hop
  rw [fieldX_encodeXYN] at hx
  rw [fieldY_encodeXYN] at hy
  rw [fieldN_encodeXYN] at hn
  omega

theorem eq_ofNat_of_toNat_eq {w : Word} {n : Nat} (h : w.toNat = n) : w = BitVec.ofNat 16 n := by
  rw [← h, BitVec.ofNat_toNat, BitVec.setWidth_eq]

/-- 2nnn. -/
theorem encode_call (nnn : Imm12) : encode (.call nnn) = BitVec.ofNat 16 (0x2000 + nnn.toNat) :=
  eq_ofNat_of_toNat_eq (toNat_encodeNNN 0x2#4 nnn)

/-- Dxyn. -/
theorem encode_drw (x y : Reg) (n : Fin 16) :
    encode (.drw x y n) = BitVec.ofNat 16 (0xD000 + x.val * 256 + y.val * 16 + n.val) :=
  eq_ofNat_of_toNat_eq (toNat_encodeXYN 0xD#4 x y n)

/-- Settles O6. -/
theorem sampleWordsDecodeAsListed : Obligations.SampleWordsDecodeAsListed := by
  unfold Obligations.SampleWordsDecodeAsListed
  decide

end Sys2Proof

namespace Sys2Proof.Machine

/-! ## The host's Step when it runs no instruction -/

section
variable {s : State}

/-- A Step that takes a fault reports its code. -/
theorem apply_step_of_takeFault {r : Byte} {c : FaultCause} {ins : Option Word} (hs : s.halted = false)
    (h : stepWith r s = .next (s.takeFault c ins)) :
    HostOp.apply (.step r) s = .next (s.takeFault c ins, .step (.fault c.code)) := by
  have hreport : stepReport s (s.takeFault c ins) = .fault c.code := by
    rw [stepReport, hs]
    rfl
  exact hreport ▸ hostStep_of_next h

theorem apply_step_of_halted (r : Byte) (hs : s.halted = true) :
    HostOp.apply (.step r) s = .next (s, .step .halted) := by
  have hreport : stepReport s s = .halted := by simp [stepReport, hs]
  exact hreport ▸ hostStep_of_next (stepBy_halted (execWith r) hs)

end

end Sys2Proof.Machine

namespace Sys2Proof

open Machine

/-- Settles O10. -/
theorem haltedStepChangesNothing : Obligations.HaltedStepChangesNothing :=
  fun _ hs => ⟨stepBy_halted exec hs, fun r => apply_step_of_halted r hs⟩

/-- Settles O11. -/
theorem fetchPastMemoryTakesMemOob : Obligations.FetchPastMemoryTakesMemOob := by
  intro s hs hpc
  have hf := s.fetch_of_gt hpc
  exact ⟨stepBy_fetchFault exec hs hf, fun r => apply_step_of_takeFault hs (stepBy_fetchFault (execWith r) hs hf)⟩

/-- Settles O12: a word that no row selects is one that the decoder calls unsupported. -/
theorem unmatchedWordTakesUnsupported : Obligations.UnmatchedWordTakesUnsupported := by
  intro s ins hs hf hrow
  have hd := decodeWord_eq_unsupported_iff.2 (forall_not_selects_iff.1 hrow)
  exact ⟨stepBy_unsupported exec hs hf hd, fun r => apply_step_of_takeFault hs (stepBy_unsupported (execWith r) hs hf hd)⟩

/-- Settles O27. -/
theorem callOnFullStackTakesStackOverflow : Obligations.CallOnFullStackTakesStackOverflow := by
  intro nnn s hfull
  rw [← encode_call]
  exact execCall_of_full hfull

/-- Settles O29. -/
theorem returnOnEmptyStackTakesStackUnderflow : Obligations.ReturnOnEmptyStackTakesStackUnderflow :=
  fun _ hempty => execRet_of_empty hempty

/-- Settles O47. -/
theorem drawPastMemoryTakesMemOob : Obligations.DrawPastMemoryTakesMemOob := by
  intro x y n s hn hpast
  rw [← encode_drw]
  exact execDrw_of_none ((memRead_eq_none_iff _ _ _).2 ⟨hn, by omega⟩)

/-! ## CALL and RET on the stack -/

theorem onlyStackEntry_push (s : State) (pc w : Word) (h : s.sp.val < 48) (sp : Fin 49) :
    OnlyStackEntry s.sp.val s (((s.advance.setStack (s.stack.set s.sp.val w h)).setSp sp).setPc pc) where
  mem _ := rfl
  DT := rfl
  ST := rfl
  key := rfl
  FSR := rfl
  regs _ := rfl
  I := rfl
  stack j hj := Vector.getElem_set_ne h j.isLt hj.symm
  disp := rfl
  rndDraws := rfl

/-- A pop leaves every entry as it was, whichever `k` the frame lets change. -/
theorem onlyStackEntry_pop (k : Nat) (s : State) (pc : Word) (sp : Fin 49) :
    OnlyStackEntry k s ((s.advance.setSp sp).setPc pc) where
  mem _ := rfl
  DT := rfl
  ST := rfl
  key := rfl
  FSR := rfl
  regs _ := rfl
  I := rfl
  stack _ _ := rfl
  disp := rfl
  rndDraws := rfl

theorem OnlyStackEntry.trans_of_stack_eq {k k' : Nat} {s t u : State} (h : OnlyStackEntry k s t) (h' : OnlyStackEntry k' t u)
    (hstack : u.stack = t.stack) : OnlyStackEntry k s u where
  mem a := (h'.mem a).trans (h.mem a)
  DT := h'.DT.trans h.DT
  ST := h'.ST.trans h.ST
  key := h'.key.trans h.key
  FSR := h'.FSR.trans h.FSR
  regs r := (h'.regs r).trans (h.regs r)
  I := h'.I.trans h.I
  stack j hj := hstack ▸ h.stack j hj
  disp := h'.disp.trans h.disp
  rndDraws := h'.rndDraws.trans h.rndDraws

/-- Settles O26. -/
theorem callPushesTheReturnAddress : Obligations.CallPushesTheReturnAddress :=
  fun nnn s h => ⟨_, execCall_of_lt h, toNat_zext16 nnn, rfl, Vector.getElem_set_self h, onlyStackEntry_push s _ _ h _⟩

/-- Settles O28. -/
theorem returnPopsIntoPc : Obligations.ReturnPopsIntoPc :=
  fun s h => ⟨_, execRet_of_pos h, rfl, rfl, rfl, onlyStackEntry_pop 0 s _ _⟩

/-- Settles O30: the RET pops the entry that the CALL pushed. -/
theorem callThenReturnComesBack : Obligations.CallThenReturnComesBack := by
  intro nnn s h
  obtain ⟨t, hcall, -, hsp, hpushed, hframe⟩ := callPushesTheReturnAddress nnn s h
  obtain ⟨u, hret, hpc, hsp', hstack, hframe'⟩ := returnPopsIntoPc t (by omega)
  have htop : t.sp.val - 1 = s.sp.val := by omega
  refine ⟨t, u, hcall, hret, ?_, Fin.ext (hsp'.trans htop), hframe.trans_of_stack_eq hframe' hstack⟩
  simp only [hpc, htop, hpushed]

end Sys2Proof

namespace Sys2Proof.Machine

/-! ## Instructions that change nothing -/

section
variable {s : State} (hs : s.halted = false)
include hs

theorem State.takeFault_ne_self (c : FaultCause) (ins : Option Word) : s.takeFault c ins ≠ s :=
  fun h => absurd (hs.symm.trans (congrArg State.halted h.symm)) nofun

/-- An instruction that leaves a running machine unchanged is a jump to its own address: RET and CALL move `sp`, every other one
that completes moves `pc` past itself. -/
theorem jump_to_self_of_exec {i : Instr} (h : exec i s = .next s) :
    ∃ nnn, (i = .jp nnn ∧ zext16 nnn = s.pc) ∨ (i = .jpV0 nnn ∧ jumpV0Target (s.readV 0) nnn = s.pc) := by
  cases i with
  | jp nnn => exact ⟨nnn, .inl ⟨rfl, congrArg (·.pc) (Host.Outcome.next.inj h)⟩⟩
  | jpV0 nnn => exact ⟨nnn, .inr ⟨rfl, congrArg (·.pc) (Host.Outcome.next.inj h)⟩⟩
  | ret =>
    rcases execRet_cases h with ⟨-, hfault⟩ | ⟨hpos, hpop⟩
    · exact absurd hfault.symm (State.takeFault_ne_self hs _ _)
    · have hsp : s.sp.val = s.sp.val - 1 := congrArg (·.sp.val) hpop
      omega
  | call nnn =>
    rcases execCall_cases h with ⟨-, hfault⟩ | ⟨hlt, hpush⟩
    · exact absurd hfault.symm (State.takeFault_ne_self hs _ _)
    · have hsp : s.sp.val = s.sp.val + 1 := congrArg (·.sp.val) hpush
      omega
  | drw x y n =>
    rcases execDrw_cases h with ⟨-, hfault⟩ | ⟨_, -, hdraw⟩
    · exact absurd hfault.symm (State.takeFault_ne_self hs _ _)
    · have hpc : s.pc = s.pc + 2#16 := congrArg (·.pc) hdraw
      simp at hpc
  | seImm | sneImm | seReg | sneReg =>
    have hpc := congrArg (·.pc) ((State.skipIf_advance s _).symm.trans (Host.Outcome.next.inj h))
    simp only [State.setPc_pc] at hpc
    split at hpc <;> simp at hpc
  | _ =>
    have hpc : s.pc + 2#16 = s.pc := congrArg (·.pc) (Host.Outcome.next.inj h)
    simp at hpc

end

end Sys2Proof.Machine

namespace Sys2Proof

open Machine

/-- Settles O18. -/
theorem idleLoopsAreExactlyJumpsToSelf : Obligations.IdleLoopsAreExactlyJumpsToSelf := by
  intro s
  refine and_congr_right fun hs => ⟨fun h => ?_, ?_⟩
  · obtain ⟨ins, i, hf, hd, hx⟩ := exists_instr_of_step_completes hs hs h
    obtain ⟨nnn, ⟨rfl, hpc⟩ | ⟨rfl, hpc⟩⟩ := jump_to_self_of_exec hs hx
    · exact ⟨ins, nnn, hf, .inl ⟨hd, (toNat_zext16 nnn).symm.trans (congrArg BitVec.toNat hpc)⟩⟩
    · exact ⟨ins, nnn, hf, .inr ⟨hd, (toNat_jumpV0Target _ nnn).symm.trans (congrArg BitVec.toNat hpc)⟩⟩
  · rintro ⟨ins, nnn, hf, ⟨hd, hpc⟩ | ⟨hd, hpc⟩⟩
    · have htarget : zext16 nnn = s.pc := BitVec.eq_of_toNat_eq ((toNat_zext16 nnn).trans hpc)
      calc step s
        _ = .next (s.setPc (zext16 nnn)) := stepBy_instr exec hs hf hd
        _ = .next s := by rw [htarget]; rfl
    · have htarget : jumpV0Target (s.readV 0) nnn = s.pc := BitVec.eq_of_toNat_eq ((toNat_jumpV0Target _ nnn).trans hpc)
      calc step s
        _ = .next (s.setPc (jumpV0Target (s.readV 0) nnn)) := stepBy_instr exec hs hf hd
        _ = .next s := by rw [htarget]; rfl

/-! ## The laws of the arithmetic -/

/-- Settles O41: each identity by the exact integers of the results. -/
theorem arithmeticIdentities : Obligations.ArithmeticIdentities := by
  intro a b
  have ha := a.isLt
  have hb := b.isLt
  refine ⟨?_, ?_, ?_, ?_, ?_, ?_⟩
  · apply BitVec.eq_of_toNat_eq
    rw [toNat_subResult, toNat_addResult]
    omega
  · apply BitVec.eq_of_toNat_eq
    rw [toNat_shlResult, toNat_addResult, Nat.two_mul]
  · apply BitVec.eq_of_toNat_eq
    rw [toNat_shlFlag, addFlag_eq]
    split <;> simp <;> omega
  · rw [toNat_shlResult, toNat_shrResult]
    omega
  · rw [subFlag_eq]
    split <;> simp <;> omega
  · rw [addFlag_eq]
    split <;> simp <;> omega

/-- Settles O42: both compute the one difference and the one flag. -/
theorem subtractAndReversedAgree : Obligations.SubtractAndReversedAgree := by
  intro x y s hx hy
  obtain ⟨t, ht, -, -, htx, htf⟩ := exec_of_result_then_flag (i := .sub x y) (s := s) rfl
  obtain ⟨u, hu, -, -, hux, huf⟩ := exec_of_result_then_flag (i := .subn y x) (s := s) rfl
  exact ⟨t, u, ht, hu, (htx hx).trans (hux hy).symm, htf.trans huf.symm⟩

end Sys2Proof

namespace Sys2Proof.Machine

/-! ## Steps beside Ticks and KeySets: what these write takes no part in a Step -/

/-- The state with other timers and keys: all that Tick and KeySet write. -/
def State.withTimersAndKeys (dt st : Byte) (key : Vector Bool 16) (s : State) : State :=
  ((s.setDT dt).setST st).setKey key

theorem tick_fst_eq (s : State) : (tick s).1 = s.withTimersAndKeys (countDown s.DT) (countDown s.ST) s.key := rfl

theorem keySet_eq (k : Fin 16) (b : Bool) (s : State) :
    keySet k b s = s.withTimersAndKeys s.DT s.ST (s.key.set k.val b k.isLt) := rfl

theorem State.skipIf_withTimersAndKeys (dt st : Byte) (key : Vector Bool 16) (s : State) (c : Bool) :
    (s.withTimersAndKeys dt st key).skipIf c = (s.skipIf c).withTimersAndKeys dt st key := by
  cases c <;> rfl

section
variable (dt st : Byte) (key : Vector Bool 16) {s t : State}

theorem exec_withTimersAndKeys {i : Instr} (h : exec i s = .next t) :
    exec i (s.withTimersAndKeys dt st key) = .next (t.withTimersAndKeys dt st key) := by
  cases i with
  | ret =>
    rcases execRet_cases h with ⟨hempty, rfl⟩ | ⟨hpos, rfl⟩
    · exact execRet_of_empty (s := s.withTimersAndKeys dt st key) hempty
    · exact execRet_of_pos (s := s.withTimersAndKeys dt st key) hpos
  | call nnn =>
    rcases execCall_cases h with ⟨hfull, rfl⟩ | ⟨hlt, rfl⟩
    · exact execCall_of_full (s := s.withTimersAndKeys dt st key) hfull
    · exact execCall_of_lt (s := s.withTimersAndKeys dt st key) hlt
  | drw x y n =>
    rcases execDrw_cases h with ⟨hm, rfl⟩ | ⟨sprite, hm, rfl⟩
    · exact execDrw_of_none (s := s.withTimersAndKeys dt st key) hm
    · exact execDrw_of_some (s := s.withTimersAndKeys dt st key) hm
  | seImm | sneImm | seReg | sneReg =>
    obtain rfl := Host.Outcome.next.inj h
    exact congrArg Host.Outcome.next (s.advance.skipIf_withTimersAndKeys dt st key _)
  | _ =>
    obtain rfl := Host.Outcome.next.inj h
    rfl

theorem step_withTimersAndKeys (h : step s = .next t) :
    step (s.withTimersAndKeys dt st key) = .next (t.withTimersAndKeys dt st key) := by
  rcases step_cases h with ⟨hh, rfl⟩ | ⟨hh, hf, rfl⟩ | ⟨ins, hh, hf, hd, rfl⟩ | ⟨ins, i, hh, hf, hd, hx⟩
  · exact stepBy_halted exec hh
  · exact stepBy_fetchFault exec (s := s.withTimersAndKeys dt st key) hh hf
  · exact stepBy_unsupported exec (s := s.withTimersAndKeys dt st key) hh hf hd
  · exact (stepBy_instr exec (s := s.withTimersAndKeys dt st key) hh hf hd).trans (exec_withTimersAndKeys dt st key hx)

end

/-! ## A Step writes no timer -/

/-- A Step keeps the timers when the meanings it runs do. -/
theorem stepBy_keeps_timers {run : Instr → State → Host.Outcome State Fault Refusal} {s t : State}
    (hrun : ∀ i, run i s = .next t → t.DT = s.DT ∧ t.ST = s.ST) (h : stepBy run s = .next t) :
    t.DT = s.DT ∧ t.ST = s.ST := by
  rcases stepBy_cases h with ⟨-, rfl⟩ | ⟨-, -, rfl⟩ | ⟨_, -, -, -, rfl⟩ | ⟨_, i, -, -, -, hx⟩
  · exact ⟨rfl, rfl⟩
  · exact ⟨rfl, rfl⟩
  · exact ⟨rfl, rfl⟩
  · exact hrun i hx

theorem exec_keeps_timers {i : Instr} {s t : State} (h : exec i s = .next t) : t.DT = s.DT ∧ t.ST = s.ST := by
  obtain ⟨-, hDT, hST, -⟩ := eachElementHasOnlyItsNamedWriters i s t h
  exact ⟨hDT, hST⟩

theorem execWith_keeps_timers {r : Byte} {i : Instr} {s t : State} (h : execWith r i s = .next t) :
    t.DT = s.DT ∧ t.ST = s.ST := by
  rcases i.eq_rnd_or_mnemonic_ne with ⟨x, nn, rfl⟩ | hi
  · obtain rfl := Host.Outcome.next.inj h
    exact ⟨rfl, rfl⟩
  · exact exec_keeps_timers ((execWith_of_ne_rnd r hi s).symm.trans h)

/-! ## Silence from reset -/

/-- Both timers are 0. -/
def TimersZero (s : State) : Prop := s.DT = 0x00#8 ∧ s.ST = 0x00#8

/-- A reply that tells the host of a sound. -/
def Reply.Sounds (r : Reply) : Prop := r = .tick true ∨ r = .soundActive true

theorem TimersZero.of_kept {s t : State} : TimersZero s → t.DT = s.DT ∧ t.ST = s.ST → TimersZero t
  | ⟨hDT, hST⟩, ⟨hDT', hST'⟩ => ⟨hDT'.trans hDT, hST'.trans hST⟩

/-- Load writes memory alone, whether it is taken or refused. -/
theorem load_fst_eq (bytes : List Byte) (s : State) : (load bytes s).1 = s.setMem (load bytes s).1.mem := by
  rcases Nat.lt_or_ge 3584 bytes.length with hlong | hfits
  · rw [load_of_too_long s hlong]
    rfl
  · rw [load_of_fits s hfits]
    rfl

/-- With both timers 0 every operation leaves them so, and its reply tells of no sound. -/
theorem TimersZero.apply {op : HostOp} {s t : State} {r : Reply} (hz : TimersZero s) (h : op.apply s = .next (t, r)) :
    TimersZero t ∧ ¬ r.Sounds := by
  cases op with
  | powerOn | reset =>
    cases h
    exact ⟨⟨rfl, rfl⟩, nofun⟩
  | load bytes =>
    cases h
    have hmem := load_fst_eq bytes s
    exact ⟨hz.of_kept ⟨congrArg (·.DT) hmem, congrArg (·.ST) hmem⟩, nofun⟩
  | step b =>
    obtain ⟨u, hu⟩ := stepWith_total b s
    cases (hostStep_of_next hu).symm.trans h
    exact ⟨hz.of_kept (stepBy_keeps_timers (fun _ => execWith_keeps_timers) hu), nofun⟩
  | tick =>
    cases h
    obtain ⟨hDT, hST⟩ := hz
    simp [TimersZero, Reply.Sounds, tick, countDown, hDT, hST]
  | keySet | readDisplay =>
    cases h
    exact ⟨hz, nofun⟩
  | readSoundActive =>
    cases h
    have ⟨_, hST⟩ := hz
    exact ⟨hz, by simp [Reply.Sounds, readSoundActive, hST]⟩

theorem TimersZero.run {ops : List HostOp} {s t : State} {replies : List Reply} (hz : TimersZero s)
    (h : HostOp.run ops s = .next (t, replies)) : TimersZero t ∧ ∀ r ∈ replies, ¬ r.Sounds := by
  induction ops generalizing s replies with
  | nil =>
    cases h
    exact ⟨hz, nofun⟩
  | cons op ops ih =>
    obtain ⟨u, r, rs, hop, hops, rfl⟩ := HostOp.run_cons_iff.1 h
    obtain ⟨hu, hr⟩ := hz.apply hop
    obtain ⟨ht, hrs⟩ := ih hu hops
    exact ⟨ht, List.forall_mem_cons.2 ⟨hr, hrs⟩⟩

end Sys2Proof.Machine

namespace Sys2Proof

open Machine

/-- Settles O22: a Step keeps the timers and keys, which decide what the Tick or the KeySet writes. -/
theorem stepTickAndKeySetCommute : Obligations.StepTickAndKeySetCommute := by
  refine ⟨fun s t h => ?_, fun s k b => rfl⟩
  obtain ⟨hDT, hST⟩ := stepBy_keeps_timers (fun _ => exec_keeps_timers) h
  have hkey : t.key = s.key := keySetWritesOneFlag.2 s t h
  refine ⟨?_, ?_, fun k b => ?_⟩
  · rw [tick_fst_eq, tick_fst_eq, hDT, hST, hkey]
    exact step_withTimersAndKeys _ _ _ h
  · simp only [tick, hST]
  · rw [keySet_eq, keySet_eq, hDT, hST, hkey]
    exact step_withTimersAndKeys _ _ _ h

/-- Settles O56: the reset state has both timers 0. -/
theorem timersStayZeroFromReset : Obligations.TimersStayZeroFromReset := by
  intro ops t replies h
  have hreset : TimersZero State.reset := ⟨rfl, rfl⟩
  obtain ⟨⟨hDT, hST⟩, hsilent⟩ := hreset.run h
  exact ⟨hDT, hST, fun hmem => hsilent _ hmem (.inl rfl), fun hmem => hsilent _ hmem (.inr rfl)⟩

/-! ## The halt -/

/-- Settles O55, by cases on the operation: the Step of a halted engine answers the same state. -/
theorem onlyResetLeavesTheHalt : Obligations.OnlyResetLeavesTheHalt := by
  intro op s hs
  cases op with
  | powerOn | reset =>
    exact ⟨_, _, rfl, fun _ => rfl, by simp⟩
  | load bytes =>
    have hload : HostOp.apply (.load bytes) s = .next (s.setMem (load bytes s).1.mem, .load (load bytes s).2) := by
      rw [← load_fst_eq]
      rfl
    exact ⟨_, _, hload, by simp, fun _ _ => ⟨hs, rfl, by simp⟩⟩
  | step r => exact ⟨s, _, apply_step_of_halted r hs, by simp, fun _ _ => by simp [hs]⟩
  | tick => exact ⟨_, _, rfl, by simp, fun _ _ => ⟨hs, rfl, by simp [tick]⟩⟩
  | keySet k b => exact ⟨_, _, rfl, by simp, fun _ _ => ⟨hs, rfl, by simp [keySet]⟩⟩
  | readDisplay | readSoundActive => exact ⟨s, _, rfl, by simp, fun _ _ => by simp [hs]⟩

end Sys2Proof

namespace Sys2Proof.Machine

/-! ## The run of empty memory -/

/-- A run of `j + k` Steps is `j` Steps and then `k`. -/
theorem run_add_of_next {M : Host.Core} {j : Nat} {s t : M.State} (h : M.run j s = .next t) (k : Nat) :
    M.run (j + k) s = M.run k t := by
  induction j generalizing s with
  | zero =>
    obtain rfl := Host.Outcome.next.inj h
    rw [Nat.zero_add]
  | succ j ih =>
    rw [Nat.succ_add, Host.Core.run]
    rw [Host.Core.run] at h
    split at h
    · exact ih h
    · cases h
    · cases h

theorem core_run_one {s t : State} (h : step s = .next t) : Host.Core.run core 1 s = .next t := by
  simp [Host.Core.run, core, h]

/-- The reset memory holds NOPs from the font up. -/
theorem step_reset_setPc {pc : Word} (hlo : 80 ≤ pc.toNat) (hhi : pc.toNat ≤ 4094) :
    step (State.reset.setPc pc) = .next (State.reset.setPc (pc + 2#16)) := by
  have hfetch : (State.reset.setPc pc).fetch = some 0x0000#16 := by
    refine ((State.reset.setPc pc).fetch_of_le hhi).trans (congrArg some ?_)
    calc wordOfBytes (resetByte pc.toNat) (resetByte (pc.toNat + 1))
      _ = wordOfBytes 0x00#8 0x00#8 := by rw [resetByte_of_ge hlo, resetByte_of_ge (by omega)]
      _ = 0x0000#16 := rfl
  exact stepBy_instr exec rfl hfetch (decodeWord_encode .nop)

theorem run_reset_of_le {k : Nat} (hk : k ≤ 1792) :
    Host.Core.run core k State.reset = .next (State.reset.setPc (BitVec.ofNat 16 (0x200 + 2 * k))) := by
  induction k with
  | zero => rfl
  | succ k ih =>
    have hstep := step_reset_setPc (pc := BitVec.ofNat 16 (0x200 + 2 * k)) (by simp; omega) (by simp; omega)
    have hpc : BitVec.ofNat 16 (0x200 + 2 * k) + 2#16 = BitVec.ofNat 16 (0x200 + 2 * (k + 1)) :=
      (BitVec.ofNat_add (0x200 + 2 * k) 2).symm
    rw [run_add_of_next (ih (by omega)) 1, core_run_one hstep, hpc]

end Sys2Proof.Machine

namespace Sys2Proof

open Machine

/-- Settles O58: 1792 NOPs lead to 0x1000, where the fetch raises. -/
theorem zeroedMemoryRunsAsNopsToItsEnd : Obligations.ZeroedMemoryRunsAsNopsToItsEnd := by
  refine ⟨fun k hk => run_reset_of_le hk, ?_⟩
  obtain ⟨hfault, -⟩ := fetchPastMemoryTakesMemOob (State.reset.setPc 0x1000#16) rfl (by decide)
  exact (run_add_of_next (run_reset_of_le (Nat.le_refl 1792)) 1).trans (core_run_one hfault)

end Sys2Proof
